-- ==== Sys2Proof/Word.lean ====
section
/-! DEFINITION. The two machine word widths (spec 00 R6 `REG_WIDTH`, 10 R21, R35). -/

namespace Sys2Proof

/-- The content of one memory cell (R35). -/
abbrev Byte := BitVec 8

/-- The content of one integer register, and a 3-byte memory word (R21, R53). -/
abbrev Word := BitVec 24

end Sys2Proof
end

