-- ==== Sys2Proof/Config.lean ====
section
/-! DEFINITION. The parameters the spec leaves open (00 R6, 92) and the free values (93), each an opaque constant:
nothing proved about the model can depend on which value it has. Parameters the spec fixes by decision as tables
stand where they are read: `OPTAB` in Decode.lean (`optab`), `REGNUM` in Machine/Operands.lean (`regOfIndex`). -/

namespace Sys2Proof

/-- The two orders `CMP_ORDER` may name (R160, D7). -/
inductive CmpOrder
  | unsigned24
  | signed24
  deriving DecidableEq, Repr, Inhabited

/-- The two answers of `REG_OVERFLOW` to a register write outside 24 bits (R22, D6). -/
inductive RegOverflow
  | wrap
  | fault
  deriving DecidableEq, Repr, Inhabited

namespace Config

/-- `CMP_ORDER` (R160, C5, D7): OPEN. Log 2. -/
opaque cmpOrder : CmpOrder

/-- `REG_OVERFLOW` (R22, R246, D6, U1): a parameter whose default is `wrap`; both answers are modelled. Log 3. -/
opaque regOverflow : RegOverflow

/-- `LINK_SECTION_NAMES` (R220, D20, U15): OPEN. Log 4. -/
opaque linkSectionNames : Bool

/-- `DEV_ENV`, first half: whether a device that is not open could be opened at this draw (R180, R186, D18). Log 5. -/
opaque devOpens : Nat → Bool

/-- `DEV_ENV`, second half: the byte a DevRead gets at this draw, or `none` for a short read (R180, R186, D18). Log 5. -/
opaque devInput : Nat → Option Byte

/-- The read cursor of a device at the moment it is opened: `DEV_CURSOR_INIT` for a first opening, and whatever a
reopened device's cursor is (R187, R190, U11). Log 6. That it is a natural number, where the spec states no range, is a
DESIGN CHOICE (log 6). -/
opaque cursorAtOpen : Nat → Nat

/-- The effective address a step reports for RSUB (R130, U8). Log 7. -/
opaque rsubReportedEa : Nat → Int

/-- Whether a step reports its effective address reduced modulo 65,536 (R130, U8). Log 7. -/
opaque reportsReducedEa : Bool

/-- The read cursor of the reference device of section 3 of spec 44 when it is opened, from the cursor it had before:
`DEV_CURSOR_INIT` at a first opening (R187), and open at a later one (R190, U11). Log 21. The spec states no range for it;
that it is a natural number, so never -1, is a DESIGN CHOICE (log 21). -/
opaque refCursorAtOpen : Nat → Nat

/-- Whether bytes written to the reference device are added to what its reads find (one file, or two): neither assumed
nor excluded (R186, R187, D18, U13). Log 29. -/
opaque refLoopback : Bool

/-- Whether the reference device's "current position" is the cursor before its advance (R189). Log 21. -/
opaque refReadsBeforeAdvance : Bool

end Config
end Sys2Proof
end

