-- ==== Sys2Proof/Syntax.lean ====
section
/-! DEFINITION. Registers, mnemonics, operands and the instruction type: one constructor of `Instr` per row of
spec/opcode_table.json. Every bit of an instruction word has a place here, the ignored ones too (R91). -/

namespace Sys2Proof

/-- The eight integer registers (R20). F is no member: no instruction reaches it (R24, R33). -/
inductive Reg
  | A | X | L | B | S | T | PC | SW
  deriving DecidableEq, Repr

/-- The 20 mnemonics of the opcode table (R88). -/
inductive Mnemonic
  | LDA | STA | STX | STL | COMP | JEQ | JLT | J | JSUB | RSUB
  | LDCH | STCH | LDB | LDT | COMPR | CLEAR | TIXR | RD | WD | TD
  deriving DecidableEq, Repr

/-- The operand field of a format-3/4 instruction: which constructor it is IS the flag e (R82 to R85). -/
inductive Field
  | disp (d : BitVec 12)
  | addr (a : BitVec 20)
  deriving DecidableEq, Repr

/-- The operand of a format-3/4 instruction: five flags and the field (R82, R83). -/
structure Operand where
  n : Bool
  i : Bool
  x : Bool
  b : Bool
  p : Bool
  field : Field
  deriving DecidableEq, Repr

/-- The instructions. Format 2 keeps its two ignored low bits of byte 1 as `lo` and both register indexes (R86, R91);
RSUB keeps its whole ignored operand (R89). -/
inductive Instr
  | lda (o : Operand)
  | sta (o : Operand)
  | stx (o : Operand)
  | stl (o : Operand)
  | comp (o : Operand)
  | jeq (o : Operand)
  | jlt (o : Operand)
  | j (o : Operand)
  | jsub (o : Operand)
  | rsub (o : Operand)
  | ldch (o : Operand)
  | stch (o : Operand)
  | ldb (o : Operand)
  | ldt (o : Operand)
  | compr (lo : BitVec 2) (r1 r2 : BitVec 4)
  | clear (lo : BitVec 2) (r1 r2 : BitVec 4)
  | tixr (lo : BitVec 2) (r1 r2 : BitVec 4)
  | rd (o : Operand)
  | wd (o : Operand)
  | td (o : Operand)
  deriving DecidableEq, Repr

/-- The mnemonic of an instruction. -/
def Instr.mnemonic : Instr → Mnemonic
  | .lda _ => .LDA
  | .sta _ => .STA
  | .stx _ => .STX
  | .stl _ => .STL
  | .comp _ => .COMP
  | .jeq _ => .JEQ
  | .jlt _ => .JLT
  | .j _ => .J
  | .jsub _ => .JSUB
  | .rsub _ => .RSUB
  | .ldch _ => .LDCH
  | .stch _ => .STCH
  | .ldb _ => .LDB
  | .ldt _ => .LDT
  | .compr _ _ _ => .COMPR
  | .clear _ _ _ => .CLEAR
  | .tixr _ _ _ => .TIXR
  | .rd _ => .RD
  | .wd _ => .WD
  | .td _ => .TD

/-- Format length 4 when e is set, else 3 (R114). -/
def Field.len : Field → Nat
  | .disp _ => 3
  | .addr _ => 4

/-- The format-3/4 operand of an instruction; `none` for format 2. -/
def Instr.operand? : Instr → Option Operand
  | .lda o | .sta o | .stx o | .stl o | .comp o | .jeq o | .jlt o | .j o | .jsub o | .rsub o
  | .ldch o | .stch o | .ldb o | .ldt o | .rd o | .wd o | .td o => some o
  | .compr _ _ _ | .clear _ _ _ | .tixr _ _ _ => none

/-- Instruction length in bytes: 2 for the register-only instructions, else by the flag e (R87). -/
def Instr.length (i : Instr) : Nat :=
  match i.operand? with
  | some o => o.field.len
  | none => 2

end Sys2Proof
end

