-- ==== Sys2Proof/WellFormed.lean ====
section
/-! DEFINITION. The one check on an instruction's operands: a register index the instruction uses must name a register
(R92). Every flag combination and every displacement is well formed (R93, R123). An ill-formed instruction still
decodes; running it raises `UnknownRegister` (R166). -/

namespace Sys2Proof

/-- The 4-bit indexes that name an integer register (R24, R92). -/
def namesRegister (k : BitVec 4) : Bool :=
  k.toNat ≤ 5 || k.toNat == 8 || k.toNat == 9

/-- r1 of CLEAR, COMPR, TIXR and r2 of COMPR are checked; r2 of CLEAR and TIXR is not (R91, R92). -/
def Instr.wellFormed : Instr → Bool
  | .compr _ r1 r2 => namesRegister r1 && namesRegister r2
  | .clear _ r1 _ => namesRegister r1
  | .tixr _ r1 _ => namesRegister r1
  | .lda _ | .sta _ | .stx _ | .stl _ | .comp _ | .jeq _ | .jlt _ | .j _ | .jsub _ | .rsub _
  | .ldch _ | .stch _ | .ldb _ | .ldt _ | .rd _ | .wd _ | .td _ => true

end Sys2Proof
end

