-- ==== Sys2Proof/Decode.lean ====
section
/-! DEFINITION. The opcode map, the decoder (total on any four bytes) and the encoder (spec 30). -/

namespace Sys2Proof

/-- `OPTAB` (R88, D1; log 12): `byte1 & 0xFC` and its mnemonic, in the order of the spec's table. -/
def optab : List (Byte × Mnemonic) :=
  [(0x00#8, .LDA), (0x0C#8, .STA), (0x10#8, .STX), (0x14#8, .STL), (0x28#8, .COMP),
   (0x30#8, .JEQ), (0x38#8, .JLT), (0x3C#8, .J), (0x48#8, .JSUB), (0x4C#8, .RSUB)] ++
  [(0x50#8, .LDCH), (0x54#8, .STCH), (0x68#8, .LDB), (0x74#8, .LDT), (0xA0#8, .COMPR),
   (0xB4#8, .CLEAR), (0xB8#8, .TIXR), (0xD8#8, .RD), (0xDC#8, .WD), (0xE0#8, .TD)]

/-- The mnemonic of a masked first byte (R112). -/
def lookupOpcode (key : Byte) : Option Mnemonic :=
  (optab.find? (fun row => row.1 == key)).map Prod.snd

/-- The format-3/4 operand of bytes 1 to 4 (R81 to R85). Byte 4 takes part only when e is set. -/
def decodeOperand (b1 b2 b3 b4 : Byte) : Operand where
  n := b1.getLsbD 1
  i := b1.getLsbD 0
  x := b2.getLsbD 7
  b := b2.getLsbD 6
  p := b2.getLsbD 5
  field :=
    if b2.getLsbD 4 then .addr (b2.extractLsb' 0 4 ++ b3 ++ b4) else .disp (b2.extractLsb' 0 4 ++ b3)

/-- Why a byte sequence is no instruction: its masked first byte has no table entry (R90). -/
inductive DecodeError
  | unknownOpcode (byte1 : Byte)
  deriving DecidableEq, Repr

/-- The instruction of a mnemonic and the bytes it was read from: its operand (formats 3 and 4), or the ignored bits
1:0 of byte 1 and the two register indexes of byte 2 (format 2, R86). -/
def assemble (m : Mnemonic) (b1 b2 b3 b4 : Byte) : Instr :=
  match m with
  | .LDA => .lda (decodeOperand b1 b2 b3 b4)
  | .STA => .sta (decodeOperand b1 b2 b3 b4)
  | .STX => .stx (decodeOperand b1 b2 b3 b4)
  | .STL => .stl (decodeOperand b1 b2 b3 b4)
  | .COMP => .comp (decodeOperand b1 b2 b3 b4)
  | .JEQ => .jeq (decodeOperand b1 b2 b3 b4)
  | .JLT => .jlt (decodeOperand b1 b2 b3 b4)
  | .J => .j (decodeOperand b1 b2 b3 b4)
  | .JSUB => .jsub (decodeOperand b1 b2 b3 b4)
  | .RSUB => .rsub (decodeOperand b1 b2 b3 b4)
  | .LDCH => .ldch (decodeOperand b1 b2 b3 b4)
  | .STCH => .stch (decodeOperand b1 b2 b3 b4)
  | .LDB => .ldb (decodeOperand b1 b2 b3 b4)
  | .LDT => .ldt (decodeOperand b1 b2 b3 b4)
  | .COMPR => .compr (b1.extractLsb' 0 2) (b2.extractLsb' 4 4) (b2.extractLsb' 0 4)
  | .CLEAR => .clear (b1.extractLsb' 0 2) (b2.extractLsb' 4 4) (b2.extractLsb' 0 4)
  | .TIXR => .tixr (b1.extractLsb' 0 2) (b2.extractLsb' 4 4) (b2.extractLsb' 0 4)
  | .RD => .rd (decodeOperand b1 b2 b3 b4)
  | .WD => .wd (decodeOperand b1 b2 b3 b4)
  | .TD => .td (decodeOperand b1 b2 b3 b4)

/-- The decoder, total on any bytes (R93): look up `byte1 & 0xFC` (R81, R112), then read the fields. Which of the four
bytes belong to the instruction is `Instr.length` of the answer (R87); a byte beyond it does not influence the answer. -/
def decode (b1 b2 b3 b4 : Byte) : Except DecodeError Instr :=
  match lookupOpcode (b1 &&& 0xFC#8) with
  | some m => .ok (assemble m b1 b2 b3 b4)
  | none => .error (.unknownOpcode b1)

/-- The decoder on a list of bytes, the first at the lowest address; a byte the list lacks reads as zero. -/
def decodeBytes (bs : List Byte) : Except DecodeError Instr :=
  decode (bs.getD 0 0#8) (bs.getD 1 0#8) (bs.getD 2 0#8) (bs.getD 3 0#8)

/-- The opcode byte of a mnemonic, from the same table (R88). -/
def opcodeOf (m : Mnemonic) : Byte :=
  ((optab.find? (fun row => row.2 == m)).map Prod.fst).getD 0#8

/-- Byte 1: the six opcode bits, then two low bits (R81). -/
def encodeByte1 (m : Mnemonic) (lo : BitVec 2) : Byte :=
  (opcodeOf m).extractLsb' 2 6 ++ lo

/-- Formats 3 and 4 as bytes in ascending address order (R82, R83). -/
def encodeOperand (m : Mnemonic) (o : Operand) : List Byte :=
  let b1 := encodeByte1 m (BitVec.ofBool o.n ++ BitVec.ofBool o.i)
  let flags : BitVec 3 := BitVec.ofBool o.x ++ BitVec.ofBool o.b ++ BitVec.ofBool o.p
  match o.field with
  | .disp d => [b1, flags ++ 0#1 ++ d.extractLsb' 8 4, d.extractLsb' 0 8]
  | .addr a => [b1, flags ++ 1#1 ++ a.extractLsb' 16 4, a.extractLsb' 8 8, a.extractLsb' 0 8]

/-- Format 2 as bytes (R86). -/
def encodeRegisters (m : Mnemonic) (lo : BitVec 2) (r1 r2 : BitVec 4) : List Byte :=
  [encodeByte1 m lo, r1 ++ r2]

/-- The bytes of an instruction in ascending address order. -/
def encode : Instr → List Byte
  | .lda o => encodeOperand .LDA o
  | .sta o => encodeOperand .STA o
  | .stx o => encodeOperand .STX o
  | .stl o => encodeOperand .STL o
  | .comp o => encodeOperand .COMP o
  | .jeq o => encodeOperand .JEQ o
  | .jlt o => encodeOperand .JLT o
  | .j o => encodeOperand .J o
  | .jsub o => encodeOperand .JSUB o
  | .rsub o => encodeOperand .RSUB o
  | .ldch o => encodeOperand .LDCH o
  | .stch o => encodeOperand .STCH o
  | .ldb o => encodeOperand .LDB o
  | .ldt o => encodeOperand .LDT o
  | .compr lo r1 r2 => encodeRegisters .COMPR lo r1 r2
  | .clear lo r1 r2 => encodeRegisters .CLEAR lo r1 r2
  | .tixr lo r1 r2 => encodeRegisters .TIXR lo r1 r2
  | .rd o => encodeOperand .RD o
  | .wd o => encodeOperand .WD o
  | .td o => encodeOperand .TD o

/-- Byte k (from 0) of a table word: bit 0 of the word is the least significant bit of the first byte, and every bit
at or above `nbits` is 0. -/
def tableByte (nbits w k : Nat) : Byte :=
  BitVec.ofNat 8 (w % 2 ^ nbits / 256 ^ k)

/-- The instruction the decoder reads from a word numbered as spec/opcode_table.json numbers it. -/
def decodeTableWord (nbits w : Nat) : Option Instr :=
  match decode (tableByte nbits w 0) (tableByte nbits w 1) (tableByte nbits w 2) (tableByte nbits w 3) with
  | .ok i => some i
  | .error _ => none

end Sys2Proof
end

