-- ==== Sys2Proof/Machine/State.lean ====
section
/-! DEFINITION. The machine's state as plain data, the fatal conditions, the refusals, and the state after power-on
(spec 10, 60 R240, 70 R273). -/

namespace Sys2Proof.Machine

/-- The fatal conditions (R240), each with the values it records. R12: a fault in the modelling sense is a fatal
condition of the spec. No step ANSWERS one of these: the spec says what raising one does to the machine (R133, R241), so
the step takes it, a next state whose `report` holds the condition (log 1). That is the machine's own behaviour, so
safe. `HandlerMissing` needs no constructor (R94, R245). -/
inductive Fault
  /-- Raised by `step` when `byte1 & 0xFC` is not in the opcode table (R242). Safe. -/
  | unknownOpcode (p : Word) (byte1 : Byte)
  /-- Raised by CLEAR, COMPR, TIXR for an index they use in 6, 7, 10 to 15 (R243). Safe. -/
  | unknownRegister (p : Word) (k : BitVec 4)
  /-- Raised by RD and WD for a device that is not open (R244). Safe. -/
  | deviceNotOpen (p : Word) (id : Byte)
  /-- Raised by a register write outside 24 bits when `REG_OVERFLOW = fault` (R246). Safe. -/
  | registerOverflow (p : Word) (r : Reg) (v : Int)
  /-- Raised by `load`: a Modification record names a symbol no table defines (R213). Safe. -/
  | unresolvedSymbol (sym : List Char)
  /-- Raised by `load`: a record outside the stated layouts (R202, R204 to R207); the line counts from 1. Safe. -/
  | malformedRecord (line : Nat)
  /-- Raised by `load`: a D, T, E or M record before any H (R217); the line counts from 1. Safe. -/
  | recordBeforeHeader (line : Nat)
  deriving DecidableEq, Repr

/-- The refusals: only the one for an instruction without a meaning, and no instruction is without one. -/
inductive Refusal
  /-- Raised by an arm of `exec` whose instruction has no meaning yet. Safe. No arm raises it. -/
  | notModelled (mnemonic : String)
  deriving DecidableEq, Repr

/-- The eight integer registers (R20, R21). -/
structure Regs where
  a : Word
  x : Word
  l : Word
  b : Word
  s : Word
  t : Word
  pc : Word
  sw : Word
  deriving DecidableEq, Repr

/-- The memory array as its nonzero cells: addresses strictly rising and below 65,536, no entry equal to 0, which is
what an unlisted cell reads as (R35: every cell is 0 after reset). -/
abbrev Memory := List Host.Cell

/-- A control section's descriptor (R36). -/
structure Descriptor where
  name : List Char
  load : Nat
  length : Nat
  deriving DecidableEq, Repr

/-- What the core sees of one device (R40, R180): whether it is open, its read cursor
(a natural number: DESIGN CHOICE, log 6), and the bytes it was sent. -/
structure Handle where
  isOpen : Bool
  cursor : Nat
  output : List Byte
  deriving DecidableEq, Repr

/-- A device never tested: not open, nothing sent (R45, R180). -/
def Handle.untouched : Handle := ⟨false, 0, []⟩

/-- The step outputs (R42, R130). `mnemonic = none` is the empty string that signals "nothing logged". -/
structure StepOutputs where
  mnemonic : Option Mnemonic
  pc : Word
  len : Nat
  ea : Int
  device : Option Byte
  deriving DecidableEq, Repr

/-- The whole machine. -/
structure State where
  /-- The integer registers (R20). -/
  regs : Regs
  /-- Slot F, reserved; its width is open, so it is its bit pattern as a number (R33, D26; log 11). -/
  f : Nat
  /-- The memory array (R35). -/
  mem : Memory
  /-- The control-section map, keyed by load address, addresses strictly rising (R36, R216). -/
  sections : List Descriptor
  /-- The base load address (R37). -/
  loadBase : Nat
  /-- The entry point the loader recorded (R39, R209; log 9). -/
  entry : Nat
  /-- The device table by device number, numbers strictly rising, no entry equal to an untouched handle (R40). -/
  devices : List (Nat × Handle)
  /-- The runnable flag (R41). -/
  runnable : Bool
  /-- The step-output latches (R42; log 8). -/
  outputs : StepOutputs
  /-- The execution trace, oldest first (R43). -/
  trace : List Mnemonic
  /-- What the last load, step or initialize returned to the host: nothing, or failure K(info) (R133, R241; log 1, 31). -/
  report : Option Fault
  /-- The model's own: the environment's ready answers to the next DevTests of devices not open (log 5). -/
  verdicts : List Bool
  /-- The model's own: the environment's ready answers to the next DevReads, `none` a short read (log 5). -/
  inputs : List (Option Byte)
  /-- The model's own: how many free values have been drawn (log 5). -/
  draws : Nat
  deriving DecidableEq, Repr

/-- Every register 0 (R45). -/
def Regs.zero : Regs := ⟨0#24, 0#24, 0#24, 0#24, 0#24, 0#24, 0#24, 0#24⟩

/-- The latches before the first step: the spec states no value (R42, U9). DESIGN CHOICE, log 8. -/
def StepOutputs.unset : StepOutputs := ⟨none, 0#24, 0, 0, none⟩

/-- The power-on state: the state after `initialize` with no device open and an empty trace (R45, R273). -/
def State.reset : State where
  regs := Regs.zero
  f := 0
  mem := []
  sections := []
  loadBase := 0
  entry := 0
  devices := []
  runnable := false
  outputs := StepOutputs.unset
  trace := []
  report := none
  verdicts := []
  inputs := []
  draws := 0

end Sys2Proof.Machine
end

