-- ==== Sys2Proof/Machine/Ops.lean ====
section
/-! DEFINITION. The named operations on memory, registers and the rest of the state, raising a fatal condition, and what
every completed instruction does last (spec 10 R21 to R24, 20 R50 to R56, 40 R126 to R133, 60 R241). -/

namespace Sys2Proof.Machine

/-! ### Integers and words (R7, R9) -/

/-- `a16`: the floor modulus that every memory accessor applies to its address (R7, R51). -/
def a16 (v : Int) : Nat := (v % 65536).toNat

/-- `lo8` (R7). -/
def lo8 (v : Int) : Byte := BitVec.ofInt 8 v

/-- `trunc24` (R7). -/
def trunc24 (v : Int) : Word := BitVec.ofInt 24 v

/-- Whether an integer is one of 0 to bound - 1. -/
def isBelow (bound : Nat) : Int → Bool
  | .ofNat n => decide (n < bound)
  | .negSucc _ => false

/-! ### Sparse tables: entries (key, value), keys strictly rising, no entry holding the default value -/

/-- The value under a key; the default where the table has no entry. -/
def sparseGet {α : Type} (dflt : α) : List (Nat × α) → Nat → α
  | [], _ => dflt
  | (k', v) :: rest, k => if k < k' then dflt else if k = k' then v else sparseGet dflt rest k

/-- Put a value under a key, keeping the canonical form: putting the default removes the entry. -/
def sparseSet {α : Type} [DecidableEq α] (dflt : α) : List (Nat × α) → Nat → α → List (Nat × α)
  | [], k, v => if v = dflt then [] else [(k, v)]
  | (k', v') :: rest, k, v =>
    if k < k' then
      if v = dflt then (k', v') :: rest else (k, v) :: (k', v') :: rest
    else if k = k' then
      if v = dflt then rest else (k, v) :: rest
    else (k', v') :: sparseSet dflt rest k v

/-- The canonical form of a sparse table. -/
abbrev SparseWf {α : Type} (dflt : α) (m : List (Nat × α)) : Prop :=
  m.Pairwise (fun c d => c.1 < d.1) ∧ ∀ c ∈ m, c.2 ≠ dflt

/-! ### Memory (spec 20) -/

/-- The canonical form of the memory array: at most one entry a cell, cells 0 to 65,535, no entry 0. -/
abbrev Memory.wf (m : Memory) : Prop := SparseWf 0#8 m ∧ ∀ c ∈ m, c.1 < 65536

/-- `readByte` (R52). -/
def Memory.readByte (m : Memory) (addr : Int) : Byte := sparseGet 0#8 m (a16 addr)

/-- `writeByte`, of the low 8 bits (R52). -/
def Memory.writeByte (m : Memory) (addr : Int) (v : Int) : Memory := sparseSet 0#8 m (a16 addr) (lo8 v)

/-- `MemRead(addr, n)`: n bytes big-endian, each address wrapped on its own (R54, R56). -/
def Memory.read (m : Memory) (addr : Int) : Nat → Nat
  | 0 => 0
  | n + 1 => m.read addr n * 256 + (m.readByte (addr + n)).toNat

/-- `MemWrite(addr, n, v)`: the n low-order bytes of v, big-endian, each address wrapped on its own (R55, R56). -/
def Memory.write (m : Memory) (addr : Int) : Nat → Int → Memory
  | 0, _ => m
  | n + 1, v => (m.write addr n (v / 256)).writeByte (addr + n) v

/-- Bytes to consecutive cells, as a Text record's bytes go (R211). -/
def Memory.writeBytes (m : Memory) (addr : Int) : List Byte → Memory
  | [] => m
  | v :: vs => (m.writeByte addr v.toNat).writeBytes (addr + 1) vs

/-- `readByte` on the machine's memory (R52). -/
def State.readByte (s : State) (addr : Int) : Byte := s.mem.readByte addr

/-- `readWord`: 24 bits, big-endian (R53). -/
def State.readWord (s : State) (addr : Int) : Word := BitVec.ofNat 24 (s.mem.read addr 3)

/-- `writeByte` on the machine's memory (R52). -/
def State.writeByte (s : State) (addr : Int) (v : Int) : State := { s with mem := s.mem.writeByte addr v }

/-- `writeWord` (R53). -/
def State.writeWord (s : State) (addr : Int) (v : Word) : State := { s with mem := s.mem.write addr 3 v.toNat }

/-! ### Registers (R21, R22) -/

/-- `x[r]` as a pattern. -/
def Regs.get (g : Regs) : Reg → Word
  | .A => g.a
  | .X => g.x
  | .L => g.l
  | .B => g.b
  | .S => g.s
  | .T => g.t
  | .PC => g.pc
  | .SW => g.sw

/-- Put a pattern into a register. -/
def Regs.set (g : Regs) (r : Reg) (w : Word) : Regs :=
  match r with
  | .A => { g with a := w }
  | .X => { g with x := w }
  | .L => { g with l := w }
  | .B => { g with b := w }
  | .S => { g with s := w }
  | .T => { g with t := w }
  | .PC => { g with pc := w }
  | .SW => { g with sw := w }

/-- `x[r]` (R21). -/
def State.reg (s : State) (r : Reg) : Word := s.regs.get r

/-- `x[r] <- w` for a value that is a 24-bit pattern already: the first case of the register-write rule (R22). -/
def State.setReg (s : State) (r : Reg) (w : Word) : State := { s with regs := s.regs.set r w }

/-- `pc` (R10, R31). -/
def State.pc (s : State) : Word := s.reg .PC

/-- What a register takes of an integer (R22): the integer itself when it has 24 bits, otherwise by `REG_OVERFLOW`;
`none` means the write raises `RegisterOverflow`. -/
def regFit (v : Int) : Option Word :=
  if isBelow 16777216 v then some (trunc24 v)
  else
    match Config.regOverflow with
    | .wrap => some (trunc24 v)
    | .fault => none

/-- `x[r] <- v` for an integer v, in the instruction fetched at p (R10, R22, R246). -/
def State.writeReg (s : State) (p : Word) (r : Reg) (v : Int) : Except Fault State :=
  match regFit v with
  | some w => .ok (s.setReg r w)
  | none => .error (.registerOverflow p r v)

/-- The closing PC write of an instruction that falls through: P + len, unreduced (R126). -/
def State.fallThrough (s : State) (p : Word) (len : Nat) : Except Fault State :=
  s.writeReg p .PC (p.toNat + len)

/-! ### How a step ends -/

/-- The halt condition: PC is 0 or outside the memory (R127). -/
def haltsAt (pc : Word) : Bool := pc.toNat == 0 || 65536 ≤ pc.toNat

/-- `raise K` (R133, R241): nothing of the machine changes but the runnable flag, and the host is told K. This is the one
way an exceptional event is taken; no state is saved, no vector read, and there is no return from it (R251). -/
def State.raise (s : State) (k : Fault) : State := { s with runnable := false, report := some k }

/-- What every completed instruction does after its handler: record the step outputs, append the mnemonic to the trace,
evaluate the halt condition on the new PC, return without failure (R110 items 6 and 7, R127, R130, R131). -/
def State.retire (s : State) (m : Mnemonic) (p : Word) (len : Nat) (ea : Int) (dev : Option Byte) : State :=
  { s with
    outputs := ⟨some m, p, len, ea, dev⟩
    trace := s.trace ++ [m]
    runnable := if haltsAt s.pc then false else s.runnable
    report := none }

/-- The effective address as a step reports it: the integer or its value modulo 65,536, which of the two is open
(R130, U8; log 7). -/
def reportedEa (ea : Int) : Int :=
  if isBelow 65536 ea then ea else if Config.reportsReducedEa then (a16 ea : Int) else ea

/-- Close an instruction started in `s`: when its handler ran through, retire; when it raised, the fatal condition is
taken in `s` as it was before the instruction (R110, R133). -/
def finish (s : State) (m : Mnemonic) (len : Nat) (ea : Int) (dev : Option Byte) (body : Except Fault State) :
    Host.Outcome State Fault Refusal :=
  .next (match body with
    | .ok t => t.retire m s.pc len ea dev
    | .error k => s.raise k)

/-! ### The device table (R40) -/

/-- The handle of a device number. -/
def State.device (s : State) (id : Byte) : Handle := sparseGet Handle.untouched s.devices id.toNat

/-- Replace the handle of a device number. -/
def State.setDevice (s : State) (id : Byte) (h : Handle) : State :=
  { s with devices := sparseSet Handle.untouched s.devices id.toNat h }

/-- `open(id)` (R180). -/
def State.isOpen (s : State) (id : Byte) : Bool := (s.device id).isOpen

/-- A handle after DevClose: flushed and closed; what it was sent stays sent (R180, R190; log 20). -/
def Handle.closed (h : Handle) : Handle := { h with isOpen := false, cursor := 0 }

/-- `DevClose` on the table: every device is closed, and an entry that is untouched again is dropped (R180, R190). -/
def closeAll (ds : List (Nat × Handle)) : List (Nat × Handle) :=
  (ds.map (fun d => (d.1, d.2.closed))).filter (fun d => d.2 ≠ Handle.untouched)

/-- `DevClose` (R180, R190). -/
def State.devClose (s : State) : State := { s with devices := closeAll s.devices }

/-- `step` on a machine that is not runnable: nothing but DevClose, and no failure to report (R128). -/
def State.idle (s : State) : State := { s.devClose with report := none }

/-! ### Fetch (R110 items 1 to 3, R111) -/

/-- The instruction at PC: four bytes through the byte accessor, each address wrapped on its own. Reads have no side effect
(R60), so reading a byte beyond the instruction's length shows nowhere. -/
def State.fetchDecode (s : State) : Except DecodeError Instr :=
  let p : Int := s.pc.toNat
  decode (s.readByte p) (s.readByte (p + 1)) (s.readByte (p + 2)) (s.readByte (p + 3))

/-- Taking an undecodable instruction: `UnknownOpcode` with the fetch address and the first byte (R242). -/
def State.raiseDecode (s : State) : DecodeError → State
  | .unknownOpcode byte1 => s.raise (.unknownOpcode s.pc byte1)

end Sys2Proof.Machine
end

