-- ==== Sys2Proof/Machine/Flags.lean ====
section
/-! DEFINITION. The condition values of SW and the comparison (10 R32, 42 R160). -/

namespace Sys2Proof.Machine

/-- The source's -1: "less" (R9, R32). -/
def swLess : Word := 0xFFFFFF#24

/-- "equal" (R32). -/
def swEqual : Word := 0x000000#24

/-- "greater" (R32). -/
def swGreater : Word := 0x000001#24

/-- a is less than b under `CMP_ORDER` (R160): the two orders agree unless exactly one of the operands has bit 23 set,
so the parameter is asked only then. -/
def lessThan (a b : Word) : Bool :=
  if a.msb = b.msb then decide (a.toNat < b.toNat)
  else
    match Config.cmpOrder with
    | .unsigned24 => decide (a.toNat < b.toNat)
    | .signed24 => decide (a.toInt < b.toInt)

/-- `cmp(a, b)` (R160). -/
def cmpWords (a b : Word) : Word :=
  if a = b then swEqual else if lessThan a b then swLess else swGreater

end Sys2Proof.Machine
end

