-- ==== Sys2Proof/Machine/Operands.lean ====
section
/-! DEFINITION. Register indexes (10 R23, R24) and the addressing-mode resolver (40 R113 to R124). -/

namespace Sys2Proof.Machine

/-- `REGNUM` and `reg(k)` (R23, R24, D2, D12): `none` where the index names no integer register; index 6, F, is one of
those. -/
def regOfIndex (k : BitVec 4) : Option Reg :=
  match k.toNat with
  | 0 => some .A
  | 1 => some .X
  | 2 => some .L
  | 3 => some .B
  | 4 => some .S
  | 5 => some .T
  | 8 => some .PC
  | 9 => some .SW
  | _ => none

/-- `reg(k)` in the instruction fetched at p: the register, or `UnknownRegister` (R24, R243). -/
def regAt (p : Word) (k : BitVec 4) : Except Fault Reg :=
  match regOfIndex k with
  | some r => .ok r
  | none => .error (.unknownRegister p k)

/-- `sext12` (R9). -/
def sext12 (d : BitVec 12) : Int := if d.toNat < 2048 then d.toNat else (d.toNat : Int) - 4096

/-- The raw operand field, unsigned (R114). -/
def fieldRaw : Field → Int
  | .disp d => d.toNat
  | .addr a => a.toNat

/-- The field of every mode but immediate: a 12-bit displacement is sign-extended, a 20-bit address is not (R117). -/
def fieldSigned : Field → Int
  | .disp d => sext12 d
  | .addr a => a.toNat

/-- n = 0, i = 1 (R116). -/
def isImmediate (o : Operand) : Bool := !o.n && o.i

/-- n = 1, i = 0 (R119, R120). -/
def isIndirect (o : Operand) : Bool := o.n && !o.i

/-- The decode result (R115): effective address or operand value, the immediate flag, the length. -/
structure Resolved where
  ea : Int
  imm : Bool
  len : Nat
  deriving DecidableEq, Repr

/-- Step 4, base selection: b wins over p (R118). -/
def baseAddress (o : Operand) (s : State) : Int :=
  if o.b then fieldSigned o.field + (s.reg .B).toNat
  else if o.p then fieldSigned o.field + ((s.pc.toNat : Int) + o.field.len)
  else fieldSigned o.field

/-- `Resolve(P)` (R122). All arithmetic is on integers; nothing is reduced (R124). -/
def resolve (o : Operand) (s : State) : Resolved :=
  if isImmediate o then ⟨fieldRaw o.field, true, o.field.len⟩
  else if isIndirect o then ⟨(s.readWord (baseAddress o s)).toNat, false, o.field.len⟩
  else if o.x then ⟨baseAddress o s + (s.reg .X).toNat, false, o.field.len⟩
  else ⟨baseAddress o s, false, o.field.len⟩

/-- The word an instruction with a value operand uses: the immediate value, or the word at EA (R140, R161). An immediate
has at most 20 bits, so the truncation loses nothing. -/
def wordOperand (d : Resolved) (s : State) : Word := if d.imm then trunc24 d.ea else s.readWord d.ea

/-- The operand of LDCH: the immediate value whole, or the byte at EA zero-extended (R144). -/
def charOperand (d : Resolved) (s : State) : Word :=
  if d.imm then trunc24 d.ea else (s.readByte d.ea).zeroExtend 24

/-- The device number of TD, RD, WD: the byte at EA, whatever the immediate flag says (R181). -/
def deviceNumber (d : Resolved) (s : State) : Byte := s.readByte d.ea

end Sys2Proof.Machine
end

