-- ==== Sys2Proof/Machine/CompareRegister.lean ====
section
/-! DEFINITION. COMP, COMPR, CLEAR, TIXR (spec 42). In the register-only instructions every index used is resolved before
anything is written (R166), PC reads as P while the handler runs, and the closing PC write comes last (R125, R165). -/

namespace Sys2Proof.Machine

/-- R161. -/
def execComp (o : Operand) (s : State) : Host.Outcome State Fault Refusal :=
  let d := resolve o s
  finish s .COMP d.len (reportedEa d.ea) none
    ((s.setReg .SW (cmpWords (s.reg .A) (wordOperand d s))).fallThrough s.pc d.len)

/-- R162: r1 is checked before r2. -/
def execCompr (r1 r2 : BitVec 4) (s : State) : Host.Outcome State Fault Refusal :=
  finish s .COMPR 2 0 none (do
    let ra ← regAt s.pc r1
    let rb ← regAt s.pc r2
    (s.setReg .SW (cmpWords (s.reg ra) (s.reg rb))).fallThrough s.pc 2)

/-- R163. -/
def execClear (r1 : BitVec 4) (s : State) : Host.Outcome State Fault Refusal :=
  finish s .CLEAR 2 0 none (do
    let r ← regAt s.pc r1
    (s.setReg r 0#24).fallThrough s.pc 2)

/-- R164: the incremented X is compared with r1 as it is after the increment and before SW is written. -/
def execTixr (r1 : BitVec 4) (s : State) : Host.Outcome State Fault Refusal :=
  finish s .TIXR 2 0 none (do
    let r ← regAt s.pc r1
    let t ← s.writeReg s.pc .X ((s.reg .X).toNat + 1)
    (t.setReg .SW (cmpWords (t.reg .X) (t.reg r))).fallThrough s.pc 2)

end Sys2Proof.Machine
end

