-- ==== Sys2Proof/Machine/Device.lean ====
section
/-! DEFINITION. The device port's requests (44 R180, R186) and TD, RD, WD (R183 to R185). The environment's answers are
the entries of `verdicts` and `inputs` while there are any, and then opaque draws (log 5): a claim about every state
is a claim about every environment. -/

namespace Sys2Proof.Machine

/-- The environment's verdict on opening a device that is not open. -/
def State.drawVerdict (s : State) : Bool × State :=
  match s.verdicts with
  | v :: rest => (v, { s with verdicts := rest })
  | [] => (Config.devOpens s.draws, { s with draws := s.draws + 1 })

/-- The environment's answer to a DevRead: a byte, or `none` for `short`. -/
def State.drawInput (s : State) : Option Byte × State :=
  match s.inputs with
  | r :: rest => (r, { s with inputs := rest })
  | [] => (Config.devInput s.draws, { s with draws := s.draws + 1 })

/-- A device becomes open; where its read cursor starts is a free value (R187, U11; log 6). -/
def State.openDevice (s : State) (id : Byte) : State :=
  { s.setDevice id { s.device id with isOpen := true, cursor := Config.cursorAtOpen s.draws } with
    draws := s.draws + 1 }

/-- `DevTest(id)` (R180): ok at once when the device is open already, otherwise as the environment says. -/
def State.devTest (s : State) (id : Byte) : Bool × State :=
  if s.isOpen id then (true, s)
  else
    match s.drawVerdict with
    | (true, t) => (true, t.openDevice id)
    | (false, t) => (false, t)

/-- `DevRead(id)` on an open device (R180): the answer, with one position of the input consumed, on a short read too
(R184, R189). -/
def State.devRead (s : State) (id : Byte) : Option Byte × State :=
  match s.drawInput with
  | (r, t) => (r, t.setDevice id { t.device id with cursor := (t.device id).cursor + 1 })

/-- `DevWrite(id, v)` on an open device: appended at once (R180, R191). -/
def State.devWrite (s : State) (id v : Byte) : State :=
  s.setDevice id { s.device id with output := (s.device id).output ++ [v] }

/-- `sext8_24` (R9). -/
def sext8 (v : Byte) : Word := if v.toNat < 128 then BitVec.ofNat 24 v.toNat else BitVec.ofNat 24 (0xFFFF00 + v.toNat)

/-- What RD puts into A: the byte sign-extended, 0 on a short read (R184). -/
def inputWord : Option Byte → Word
  | some v => sext8 v
  | none => 0#24

/-- R183. -/
def execTd (o : Operand) (s : State) : Host.Outcome State Fault Refusal :=
  let d := resolve o s
  let id := deviceNumber d s
  let r := s.devTest id
  finish s .TD d.len (reportedEa d.ea) (some id)
    ((r.2.setReg .SW (if r.1 then swGreater else swEqual)).fallThrough s.pc d.len)

/-- R184. -/
def execRd (o : Operand) (s : State) : Host.Outcome State Fault Refusal :=
  let d := resolve o s
  let id := deviceNumber d s
  finish s .RD d.len (reportedEa d.ea) (some id)
    (if s.isOpen id then
      let r := s.devRead id
      (r.2.setReg .A (inputWord r.1)).fallThrough s.pc d.len
    else .error (.deviceNotOpen s.pc id))

/-- R185. -/
def execWd (o : Operand) (s : State) : Host.Outcome State Fault Refusal :=
  let d := resolve o s
  let id := deviceNumber d s
  finish s .WD d.len (reportedEa d.ea) (some id)
    (if s.isOpen id then (s.devWrite id (lo8 (s.reg .A).toNat)).fallThrough s.pc d.len
    else .error (.deviceNotOpen s.pc id))

end Sys2Proof.Machine
end

