-- ==== Sys2Proof/Machine/Jump.lean ====
section
/-! DEFINITION. J, JEQ, JLT, JSUB, RSUB (spec 43). A target goes to PC through the register-write rule, unreduced (R124),
and the immediate flag is not consulted (R175). -/

namespace Sys2Proof.Machine

/-- A jump taken when `taken` holds: PC takes EA, else P + len (R126). -/
def jumpIf (m : Mnemonic) (taken : Bool) (o : Operand) (s : State) : Host.Outcome State Fault Refusal :=
  let d := resolve o s
  finish s m d.len (reportedEa d.ea) none
    (if taken then s.writeReg s.pc .PC d.ea else s.fallThrough s.pc d.len)

/-- R170. -/
def execJ (o : Operand) (s : State) : Host.Outcome State Fault Refusal := jumpIf .J true o s

/-- R171. -/
def execJeq (o : Operand) (s : State) : Host.Outcome State Fault Refusal := jumpIf .JEQ (s.reg .SW == swEqual) o s

/-- R172. -/
def execJlt (o : Operand) (s : State) : Host.Outcome State Fault Refusal := jumpIf .JLT (s.reg .SW == swLess) o s

/-- R173: EA is resolved before L is written. -/
def execJsub (o : Operand) (s : State) : Host.Outcome State Fault Refusal :=
  let d := resolve o s
  finish s .JSUB d.len (reportedEa d.ea) none (do
    let t ← s.writeReg s.pc .L (s.pc.toNat + d.len)
    t.writeReg s.pc .PC d.ea)

/-- R174: no operand is resolved (R89, R113). The reported effective address is not specified (U8), so it is a free value;
only the reported length depends on the operand's bits. -/
def execRsub (o : Operand) (s : State) : Host.Outcome State Fault Refusal :=
  finish s .RSUB o.field.len (Config.rsubReportedEa s.draws) none
    (.ok ({ s with draws := s.draws + 1 }.setReg .PC (s.reg .L)))

end Sys2Proof.Machine
end

