-- ==== Sys2Proof/Machine/LoadStore.lean ====
section
/-! DEFINITION. LDA, LDB, LDT, LDCH, STA, STL, STX, STCH (spec 41). -/

namespace Sys2Proof.Machine

/-- The load of the family (R140): the named register takes the value, then PC falls through. -/
def loadInto (m : Mnemonic) (r : Reg) (value : Resolved → State → Word) (o : Operand) (s : State) :
    Host.Outcome State Fault Refusal :=
  let d := resolve o s
  finish s m d.len (reportedEa d.ea) none ((s.setReg r (value d s)).fallThrough s.pc d.len)

/-- The word store of the family (R140): the word at EA takes the register; the immediate flag is not consulted (R149). -/
def storeWord (m : Mnemonic) (r : Reg) (o : Operand) (s : State) : Host.Outcome State Fault Refusal :=
  let d := resolve o s
  finish s m d.len (reportedEa d.ea) none ((s.writeWord d.ea (s.reg r)).fallThrough s.pc d.len)

/-- R141. -/
def execLda (o : Operand) (s : State) : Host.Outcome State Fault Refusal := loadInto .LDA .A wordOperand o s

/-- R142. -/
def execLdb (o : Operand) (s : State) : Host.Outcome State Fault Refusal := loadInto .LDB .B wordOperand o s

/-- R143. -/
def execLdt (o : Operand) (s : State) : Host.Outcome State Fault Refusal := loadInto .LDT .T wordOperand o s

/-- R144. -/
def execLdch (o : Operand) (s : State) : Host.Outcome State Fault Refusal := loadInto .LDCH .A charOperand o s

/-- R145. -/
def execSta (o : Operand) (s : State) : Host.Outcome State Fault Refusal := storeWord .STA .A o s

/-- R146. -/
def execStl (o : Operand) (s : State) : Host.Outcome State Fault Refusal := storeWord .STL .L o s

/-- R147. -/
def execStx (o : Operand) (s : State) : Host.Outcome State Fault Refusal := storeWord .STX .X o s

/-- R148: exactly one cell takes the low byte of A. -/
def execStch (o : Operand) (s : State) : Host.Outcome State Fault Refusal :=
  let d := resolve o s
  finish s .STCH d.len (reportedEa d.ea) none ((s.writeByte d.ea (s.reg .A).toNat).fallThrough s.pc d.len)

end Sys2Proof.Machine
end

