-- ==== Sys2Proof/Machine/Dispatch.lean ====
section
/-! DEFINITION. The dispatcher: one exhaustive match over the 20 instructions (40 R112, 30 R94). -/

namespace Sys2Proof.Machine

def exec (i : Instr) (s : State) : Host.Outcome State Fault Refusal :=
  match i with
  | .lda o => Sys2Proof.Machine.execLda o s
  | .sta o => Sys2Proof.Machine.execSta o s
  | .stx o => Sys2Proof.Machine.execStx o s
  | .stl o => Sys2Proof.Machine.execStl o s
  | .comp o => Sys2Proof.Machine.execComp o s
  | .jeq o => Sys2Proof.Machine.execJeq o s
  | .jlt o => Sys2Proof.Machine.execJlt o s
  | .j o => Sys2Proof.Machine.execJ o s
  | .jsub o => Sys2Proof.Machine.execJsub o s
  | .rsub o => Sys2Proof.Machine.execRsub o s
  | .ldch o => Sys2Proof.Machine.execLdch o s
  | .stch o => Sys2Proof.Machine.execStch o s
  | .ldb o => Sys2Proof.Machine.execLdb o s
  | .ldt o => Sys2Proof.Machine.execLdt o s
  | .compr _ r1 r2 => Sys2Proof.Machine.execCompr r1 r2 s
  | .clear _ r1 _ => Sys2Proof.Machine.execClear r1 s
  | .tixr _ r1 _ => Sys2Proof.Machine.execTixr r1 s
  | .rd o => Sys2Proof.Machine.execRd o s
  | .wd o => Sys2Proof.Machine.execWd o s
  | .td o => Sys2Proof.Machine.execTd o s

end Sys2Proof.Machine
end

