-- ==== Sys2Proof/Machine/Step.lean ====
section
/-! DEFINITION. One `step` (40 R110, R128), and placing one instruction where the next step fetches it. -/

namespace Sys2Proof.Machine

/-- `step`: on a runnable machine fetch, decode and execute one instruction; otherwise nothing but DevClose. Every fatal
condition is taken as a next state (R133, R241; log 1), so a step always answers a next state. -/
def step (s : State) : Host.Outcome State Fault Refusal :=
  if s.runnable then
    match s.fetchDecode with
    | .ok i => exec i s
    | .error e => .next (s.raiseDecode e)
  else .next s.idle

/-- The four bytes of a table word at the fetch address, on a runnable machine: the very next step runs that
instruction. This stands for a load of the program from outside (log 13); the machine runs only when it is runnable
(R41), so that flag is set, and nothing else changes. -/
def State.withFetchWord (s : State) (nbits w : Nat) : State :=
  let p : Int := s.pc.toNat
  { s with
    mem := s.mem.writeBytes p
      [tableByte nbits w 0, tableByte nbits w 1, tableByte nbits w 2, tableByte nbits w 3]
    runnable := true }

end Sys2Proof.Machine
end

