-- ==== Sys2Proof/Machine/Loader.lean ====
section
/-! DEFINITION. `initialize` (70 R270) and the relocation engine: the two-pass linking loader (spec 50) as the host
operation `load` (40 R132). The artifact is a text, a list of characters, read twice unchanged (R200, R218). -/

namespace Sys2Proof.Machine

/-- `initialize` (R270 to R273): memory, registers, F, section map and base are reset, the machine is not runnable; the
device table stays as it is (R272), and so does the environment. The trace, the latches and the entry point, for which
the spec states nothing here, take their power-on values (log 8, 9, 10). -/
def State.initializeMachine (s : State) : State :=
  { State.reset with devices := s.devices, verdicts := s.verdicts, inputs := s.inputs, draws := s.draws }

/-! ### Text (R201 to R203) -/

/-- White space (R201; log 17). -/
def isBlank (c : Char) : Bool := c == ' ' || c == '\t' || c == '\r' || c == '\n'

/-- Drop trailing white space (R201). -/
def trimRight (cs : List Char) : List Char := (cs.reverse.dropWhile isBlank).reverse

/-- Drop leading and trailing white space (R203). -/
def trim (cs : List Char) : List Char := trimRight (cs.dropWhile isBlank)

/-- The lines of a text, without their line ends. -/
def splitLines : List Char → List (List Char)
  | [] => [[]]
  | c :: cs =>
    if c == '\n' then [] :: splitLines cs
    else
      match splitLines cs with
      | [] => [[c]]
      | l :: ls => (c :: l) :: ls

/-- The artifact's lines as both passes see them: trailing white space removed (R201). -/
def artifactLines (text : List Char) : List (List Char) := (splitLines text).map trimRight

/-- A hex digit, A to F in either case (R202). -/
def hexDigit (c : Char) : Option Nat :=
  let n := c.toNat
  if 48 ≤ n ∧ n ≤ 57 then some (n - 48)
  else if 65 ≤ n ∧ n ≤ 70 then some (n - 55)
  else if 97 ≤ n ∧ n ≤ 102 then some (n - 87)
  else none

/-- A hex field of exactly k digits, most significant first, and what follows it; `none` when the line ends early or a
character is no hex digit (R202). `acc` is the value of the digits read before. -/
def hexField : Nat → Nat → List Char → Option (Nat × List Char)
  | 0, acc, cs => some (acc, cs)
  | _ + 1, _, [] => none
  | k + 1, acc, c :: cs =>
    match hexDigit c with
    | some d => hexField k (acc * 16 + d) cs
    | none => none

/-- k bytes of two hex digits each; what follows is not read (R206). -/
def hexBytes : Nat → List Char → Option (List Byte)
  | 0, _ => some []
  | k + 1, cs =>
    match hexField 2 0 cs with
    | some (v, rest) => (hexBytes k rest).map (fun vs => BitVec.ofNat 8 v :: vs)
    | none => none

/-! ### Record layouts (R204 to R208): each takes the line from column 2 on -/

/-- Header: name, white space, 6 digits start (parsed and unused, R222), 6 digits length (R204). -/
def parseHeader (cs : List Char) : Option (List Char × Nat) :=
  let name := cs.takeWhile (fun c => !isBlank c)
  let rest := cs.dropWhile (fun c => !isBlank c)
  let digits := rest.dropWhile isBlank
  if name.isEmpty || rest.isEmpty then none
  else
    match hexField 6 0 digits with
    | some (_, rest') => (hexField 6 0 rest').map (fun r => (name, r.1))
    | none => none

/-- Define: groups of a 6-character name and a 6-digit offset; a shorter remainder is malformed (R205). The first argument
bounds the number of groups. A name of six blanks is taken as the empty name: DESIGN CHOICE, log 30. No group at all (a
record `D` alone) is accepted and defines nothing: DESIGN CHOICE, log 32. -/
def parseDefines : Nat → List Char → Option (List (List Char × Nat))
  | _, [] => some []
  | 0, _ :: _ => none
  | k + 1, cs =>
    match hexField 6 0 (cs.drop 6) with
    | some (off, rest) => (parseDefines k rest).map (fun ds => (trim (cs.take 6), off) :: ds)
    | none => none

/-- Text: 6 digits offset, 2 digits count, that many bytes (R206). -/
def parseText (cs : List Char) : Option (Nat × List Byte) :=
  match hexField 6 0 cs with
  | some (off, rest) =>
    match hexField 2 0 rest with
    | some (c, rest') => (hexBytes c rest').map (fun vs => (off, vs))
    | none => none
  | none => none

/-- A Modification record: offset, half-byte count, whether the sign is `+`, symbol (R207). -/
structure Modification where
  offset : Nat
  halfBytes : Nat
  plus : Bool
  sym : List Char
  deriving DecidableEq, Repr

/-- Modification: 6 digits offset, 2 digits half-byte count, sign, symbol to the end of the line (R207). A symbol that is
empty after trimming is taken as the empty name: DESIGN CHOICE, log 30. -/
def parseModification (cs : List Char) : Option Modification :=
  match hexField 6 0 cs with
  | some (off, rest) =>
    match hexField 2 0 rest with
    | some (h, sign :: name) =>
      if sign == '+' then some ⟨off, h, true, trim name⟩
      else if sign == '-' then some ⟨off, h, false, trim name⟩
      else none
    | _ => none
  | none => none

/-- End: an optional 6-digit offset; blank columns 2 to 7 mean there is none (R208; log 19). -/
def parseEnd (cs : List Char) : Option (Option Nat) :=
  if (cs.take 6).all isBlank then some none
  else (hexField 6 0 cs).map (fun r => some r.1)

/-! ### The passes (R209 to R217) -/

/-- A section's symbol table, the newest definition first (R213: the last definition wins within a section). -/
abbrev SymbolTable := List (List Char × Nat)

/-- What a `load` keeps while it runs: the machine, the current section, and one symbol table a Header record, the newest
section first (R38, R215). Discarded when the load ends. -/
structure LoadState where
  machine : State
  cur : Option Descriptor
  tables : List SymbolTable
  deriving DecidableEq, Repr

/-- Enter a descriptor under its load address, replacing one that is there (R216). -/
def insertSection (d : Descriptor) : List Descriptor → List Descriptor
  | [] => [d]
  | e :: rest =>
    if d.load < e.load then d :: e :: rest
    else if d.load = e.load then d :: rest
    else e :: insertSection d rest

/-- The load address of the section a Header opens: the base, or where the previous section ends by its declared length
(R210). Not reduced modulo 65,536. -/
def nextLoad (ls : LoadState) : Nat :=
  match ls.cur with
  | none => ls.machine.loadBase
  | some d => d.load + d.length

/-- The value of a symbol in one table. -/
def lookupIn (t : SymbolTable) (sym : List Char) : Option Nat :=
  (t.find? (fun e => e.1 == sym)).map Prod.snd

/-- `Lookup(sym)`: the first section in load order that defines it (R213). -/
def lookupSymbol (tables : List SymbolTable) (sym : List Char) : Option Nat :=
  tables.reverse.findSome? (fun t => lookupIn t sym)

/-- Define symbols of the current section, at their absolute addresses (R211, R215). -/
def defineSymbols (base : Nat) (ds : List (List Char × Nat)) : List SymbolTable → List SymbolTable
  | [] => []
  | t :: ts => ((ds.map (fun d => (d.1, d.2 + base))).reverse ++ t) :: ts

/-- The table a Header opens: empty, or the section's own name under `LINK_SECTION_NAMES` (R211, R220). -/
def openTable (name : List Char) (load : Nat) : SymbolTable :=
  if Config.linkSectionNames then [(name, load)] else []

/-- Pass 1, Header (R211, R216). -/
def pass1Header (n : Nat) (cs : List Char) (ls : LoadState) : Except Fault LoadState :=
  match parseHeader cs with
  | none => .error (.malformedRecord n)
  | some (name, length) =>
    let d : Descriptor := ⟨name, nextLoad ls, length⟩
    .ok
      { machine := { ls.machine with sections := insertSection d ls.machine.sections }
        cur := some d
        tables := openTable name d.load :: ls.tables }

/-- Pass 1, Define (R211). A record is read whole before it has any effect (R206). -/
def pass1Define (n : Nat) (cs : List Char) (ls : LoadState) : Except Fault LoadState :=
  match ls.cur with
  | none => .error (.recordBeforeHeader n)
  | some d =>
    match parseDefines cs.length cs with
    | none => .error (.malformedRecord n)
    | some ds => .ok { ls with tables := defineSymbols d.load ds ls.tables }

/-- Pass 1, Text (R206, R211). -/
def pass1Text (n : Nat) (cs : List Char) (ls : LoadState) : Except Fault LoadState :=
  match ls.cur with
  | none => .error (.recordBeforeHeader n)
  | some d =>
    match parseText cs with
    | none => .error (.malformedRecord n)
    | some (off, vs) =>
      .ok { ls with machine := { ls.machine with mem := ls.machine.mem.writeBytes ((off + d.load : Nat) : Int) vs } }

/-- Pass 1, End (R209, R211). -/
def pass1End (n : Nat) (cs : List Char) (ls : LoadState) : Except Fault LoadState :=
  match ls.cur with
  | none => .error (.recordBeforeHeader n)
  | some d =>
    match parseEnd cs with
    | none => .error (.malformedRecord n)
    | some none => .ok { ls with machine := { ls.machine with entry := d.load } }
    | some (some off) => .ok { ls with machine := { ls.machine with entry := off + d.load } }

/-- Pass 1 on one line: H, D, T, E; everything else is skipped (R201, R211). -/
def pass1Line (n : Nat) (line : List Char) (ls : LoadState) : Except Fault LoadState :=
  match line with
  | [] => .ok ls
  | c :: cs =>
    if c == 'H' then pass1Header n cs ls
    else if c == 'D' then pass1Define n cs ls
    else if c == 'T' then pass1Text n cs ls
    else if c == 'E' then pass1End n cs ls
    else .ok ls

/-- Pass 2, Header: the load address again, by the same function (R210, R212). -/
def pass2Header (n : Nat) (cs : List Char) (ls : LoadState) : Except Fault LoadState :=
  match parseHeader cs with
  | none => .error (.malformedRecord n)
  | some (name, length) => .ok { ls with cur := some ⟨name, nextLoad ls, length⟩ }

/-- The bytes of a Modification field: the half-byte count rounded up (R214). -/
def fieldBytes (h : Nat) : Nat := (h + 1) / 2

/-- The adjusted memory: the field plus or minus the symbol's address, over all its bytes, modulo 256^n (R212, R214). -/
def modifyField (m : Memory) (addr : Int) (h : Nat) (plus : Bool) (value : Nat) : Memory :=
  let v : Int := m.read addr (fieldBytes h)
  m.write addr (fieldBytes h) (if plus then v + value else v - value)

/-- Pass 2, Modification (R212 to R214). -/
def pass2Modify (n : Nat) (cs : List Char) (ls : LoadState) : Except Fault LoadState :=
  match ls.cur with
  | none => .error (.recordBeforeHeader n)
  | some d =>
    match parseModification cs with
    | none => .error (.malformedRecord n)
    | some r =>
      match lookupSymbol ls.tables r.sym with
      | none => .error (.unresolvedSymbol r.sym)
      | some value =>
        let m := modifyField ls.machine.mem ((r.offset + d.load : Nat) : Int) r.halfBytes r.plus value
        .ok { ls with machine := { ls.machine with mem := m } }

/-- Pass 2 on one line: H and M; everything else is skipped (R200, R212). -/
def pass2Line (n : Nat) (line : List Char) (ls : LoadState) : Except Fault LoadState :=
  match line with
  | [] => .ok ls
  | c :: cs =>
    if c == 'H' then pass2Header n cs ls
    else if c == 'M' then pass2Modify n cs ls
    else .ok ls

/-- One pass over the lines from line n on: what was reached, and the fatal condition that ended it, if one did. There is
no rollback (R219). -/
def runPass (f : Nat → List Char → LoadState → Except Fault LoadState) :
    Nat → List (List Char) → LoadState → LoadState × Option Fault
  | _, [], ls => (ls, none)
  | n, line :: rest, ls =>
    match f n line ls with
    | .ok ls' => runPass f (n + 1) rest ls'
    | .error k => (ls, some k)

/-- A load that failed: the machine keeps what was written, is not runnable, and the host is told (R132, R219). -/
def loadFailed (s : State) (k : Fault) : State := s.raise k

/-- A load that succeeded: PC at the load base whatever the End records said, runnable, empty trace (R132, R221, R274). -/
def loadDone (s : State) : State :=
  { s.setReg .PC (BitVec.ofNat 24 s.loadBase) with runnable := true, trace := [], report := none }

/-- `load` (R132): initialize, pass 1 over the whole artifact, pass 2, then PC and the runnable flag. -/
def State.load (text : List Char) (s : State) : State :=
  let lines := artifactLines text
  match runPass pass1Line 1 lines ⟨s.initializeMachine, none, []⟩ with
  | (ls, some k) => loadFailed ls.machine k
  | (ls, none) =>
    match runPass pass2Line 1 lines { ls with cur := none } with
    | (ls', some k) => loadFailed ls'.machine k
    | (ls', none) => loadDone ls'.machine

end Sys2Proof.Machine
end

