-- ==== Sys2Proof/Machine/HostOps.lean ====
section
/-! DEFINITION. The host's other operations and its observers (00 R5, 40 R129, R134, 60 R258, 70 R277). -/

namespace Sys2Proof.Machine

/-- `run`: step while runnable, under fuel (`RUN_BOUND`, R129, D24; log 24). On a machine that is not runnable it changes
nothing, so the report of an earlier failure stays: DESIGN CHOICE, log 31. -/
def run : Nat → State → Host.Outcome State Fault Refusal
  | 0, s => .next s
  | k + 1, s =>
    if s.runnable then
      match step s with
      | .next t => run k t
      | .fault e => .fault e
      | .refused e => .refused e
    else .next s

/-- Machine shutdown: `closeDevice` (R190, R277). The report of an earlier failure stays: DESIGN CHOICE, log 31. -/
def State.shutdown (s : State) : State := s.devClose

/-- A byte range of memory (R258). -/
def State.readRange (s : State) (addr : Int) : Nat → List Byte
  | 0 => []
  | n + 1 => s.readByte addr :: s.readRange (addr + 1) n

/-- Whether a section owns an address (R134). -/
def Descriptor.owns (d : Descriptor) (pc : Nat) : Bool := d.load ≤ pc && pc < d.load + d.length

/-- The section with the greatest load address. -/
def greatestLoad : List Descriptor → Option Descriptor
  | [] => none
  | d :: rest =>
    match greatestLoad rest with
    | none => some d
    | some e => if e.load < d.load then some d else some e

/-- The active control section (R134, D23). -/
def State.activeSection (s : State) : Option Descriptor :=
  greatestLoad (s.sections.filter (fun d => d.owns s.pc.toNat))

/-- The bytes a device was sent (R180). -/
def State.deviceOutput (s : State) (id : Byte) : List Byte := (s.device id).output

end Sys2Proof.Machine
end

