-- ==== Sys2Proof/Machine/RefDevice.lean ====
section
/-! DEFINITION. The reference device of 44 section 3 (R187 to R192): one device's streams as the source's Resource Model
keeps them. The core does not depend on it (R180 governs the core); it is one environment among those the draws of
Device.lean stand for. -/

namespace Sys2Proof.Machine

/-- A device: whether it has been opened and not closed, what its input holds, its cursor, what was appended to its output
(R187; a natural number: DESIGN CHOICE, log 21). Input and output stand in two fields, and whether they are one file is open: `RefDevice.write` (log 29). -/
structure RefDevice where
  isOpen : Bool
  input : List Byte
  cursor : Nat
  output : List Byte
  deriving DecidableEq, Repr

/-- `testDevice` (R188): opens the streams, or does nothing when they are open; `creatable` says whether the underlying
resource can be created. The answer is what the status register takes. -/
def RefDevice.test (d : RefDevice) (creatable : Bool) : Bool × RefDevice :=
  if d.isOpen then (true, d)
  else if creatable then (true, { d with isOpen := true, cursor := Config.refCursorAtOpen d.cursor })
  else (false, d)

/-- The position `readDevice` reads at, given the cursor before its advance (R189; log 21). A first cursor of -1 with the
position counted after the advance, which the spec does not exclude, is not modelled: DESIGN CHOICE, log 21. -/
def refPosition (cursor : Nat) : Nat := if Config.refReadsBeforeAdvance then cursor else cursor + 1

/-- `readDevice(count)` (R189): `none` when the device was never opened (a hard failure); otherwise the bytes, or `none`
inside for a short read. The cursor advances by one before the check, on a short read too. -/
def RefDevice.read (d : RefDevice) (count : Nat) : Option (Option (List Byte) × RefDevice) :=
  if d.isOpen then
    let got := (d.input.drop (refPosition d.cursor)).take count
    some (if got.length < count then none else some got, { d with cursor := d.cursor + 1 })
  else none

/-- `writeDevice` (R191): appended to the output and flushed at once; `none` when the device was never opened. Whether the
bytes can come back on a read is open (D18, U13), so the opaque `refLoopback` decides. That one answer holds for every
write, and that the bytes come back at the input's end, is a DESIGN CHOICE (log 29). -/
def RefDevice.write (d : RefDevice) (vs : List Byte) : Option RefDevice :=
  if d.isOpen then
    some { d with
      output := d.output ++ vs
      input := if Config.refLoopback then d.input ++ vs else d.input }
  else none

/-- `closeDevice` (R190). -/
def RefDevice.close (d : RefDevice) : RefDevice := { d with isOpen := false }

/-- What a read of the Resource Model leaves in register A: 0 on a short read (R189, R192); with one byte, as RD asks,
that byte sign-extended (R184). -/
def refReadIntoA (a : Word) : Option (List Byte) → Word
  | none => 0#24
  | some [v] => sext8 v
  | some _ => a

end Sys2Proof.Machine
end

