-- ==== Sys2Proof/Safety.lean ====
section
/-! DEFINITION. What the claims are said in: what an instruction leaves alone, how one completes, the invariant of a sound
machine state, and which instructions write what. -/

namespace Sys2Proof.Machine

/-! ### Frames -/

/-- Every register but those listed holds what it held. -/
def KeepsRegsBut (rs : List Reg) (s t : State) : Prop := ∀ r : Reg, r ∉ rs → t.reg r = s.reg r

/-- Every byte of memory reads as before. -/
def KeepsMemory (s t : State) : Prop := ∀ a : Int, t.readByte a = s.readByte a

/-- Every byte of memory outside the n cells from `addr` on reads as before. -/
def KeepsMemoryOutside (addr : Int) (n : Nat) (s t : State) : Prop :=
  ∀ a : Int, (∀ k : Nat, k < n → a16 a ≠ a16 (addr + k)) → t.readByte a = s.readByte a

/-- The device table and the environment's pending answers are as before. -/
def KeepsDevices (s t : State) : Prop :=
  t.devices = s.devices ∧ t.verdicts = s.verdicts ∧ t.inputs = s.inputs

/-- F and what the loader left for the host are as before. -/
def KeepsLoaded (s t : State) : Prop :=
  t.f = s.f ∧ t.sections = s.sections ∧ t.loadBase = s.loadBase ∧ t.entry = s.entry

/-- Every device but one has the handle it had. -/
def KeepsOtherDevices (id : Byte) (s t : State) : Prop := ∀ j : Byte, j ≠ id → t.device j = s.device j

/-- The instruction m ran from `s` to `t`: its mnemonic is on the trace (R131), and the halt condition was evaluated on
the new PC (R127). -/
def Executed (m : Mnemonic) (s t : State) : Prop :=
  t.trace = s.trace ++ [m] ∧ t.runnable = (s.runnable && !(t.pc.toNat == 0 || 65536 ≤ t.pc.toNat))

/-! ### The invariant -/

/-- The canonical form of the device table: numbers below 256. -/
abbrev devicesWf (ds : List (Nat × Handle)) : Prop :=
  SparseWf Handle.untouched ds ∧ ∀ d ∈ ds, d.1 < 256

/-- The control-section map: load addresses strictly rising (R36). -/
abbrev sectionsWf (ds : List Descriptor) : Prop := ds.Pairwise (fun d e => d.load < e.load)

/-- What every state the machine reaches satisfies: canonical memory, device table and section map; SW holds a condition
value (R32); S holds 0 (R29); a runnable machine's PC is inside the memory (R111, R127); a machine that reported a
failure is not runnable (R133, R241); a device that is not open has no cursor (log 20). -/
structure Inv (s : State) : Prop where
  mem : s.mem.wf
  devices : devicesWf s.devices
  sections : sectionsWf s.sections
  sw : s.reg .SW = 0xFFFFFF#24 ∨ s.reg .SW = 0x000000#24 ∨ s.reg .SW = 0x000001#24
  sZero : s.reg .S = 0#24
  fetch : s.runnable = true → s.pc.toNat < 65536
  failed : s.report ≠ none → s.runnable = false
  closed : ∀ id : Byte, s.isOpen id = false → (s.device id).cursor = 0

/-- `t` follows from `s` by steps. -/
inductive Steps : State → State → Prop
  | refl (s : State) : Steps s s
  | tail {s t u : State} : Steps s t → step t = .next u → Steps s u

/-- `t` is reached from power-on by the host's operations: load, step, initialize, shutdown (R5). -/
inductive Reachable : State → Prop
  | reset : Reachable State.reset
  | initialized {s : State} : Reachable s → Reachable s.initializeMachine
  | load {s : State} (text : List Char) : Reachable s → Reachable (s.load text)
  | shutdown {s : State} : Reachable s → Reachable s.shutdown
  | step {s t : State} : Reachable s → step s = .next t → Reachable t

/-! ### Who writes what (R46) -/

/-- The registers an instruction may write besides PC (R25 to R32, R46). -/
def writesOf : Instr → List Reg
  | .lda _ | .ldch _ | .rd _ => [.A]
  | .ldb _ => [.B]
  | .ldt _ => [.T]
  | .jsub _ => [.L]
  | .comp _ | .compr _ _ _ | .td _ => [.SW]
  | .tixr _ _ _ => [.X, .SW]
  | .clear _ r1 _ => (regOfIndex r1).toList
  | .sta _ | .stx _ | .stl _ | .stch _ | .jeq _ | .jlt _ | .j _ | .rsub _ | .wd _ => []

/-- The instructions that store to memory (R46). -/
def storesToMemory : Instr → Bool
  | .sta _ | .stx _ | .stl _ | .stch _ => true
  | .lda _ | .comp _ | .jeq _ | .jlt _ | .j _ | .jsub _ | .rsub _ | .ldch _ | .ldb _ | .ldt _
  | .compr _ _ _ | .clear _ _ _ | .tixr _ _ _ | .rd _ | .wd _ | .td _ => false

/-- The device instructions (spec 44). -/
def usesDevice : Instr → Bool
  | .rd _ | .wd _ | .td _ => true
  | .lda _ | .comp _ | .jeq _ | .jlt _ | .j _ | .jsub _ | .rsub _ | .ldch _ | .ldb _ | .ldt _
  | .compr _ _ _ | .clear _ _ _ | .tixr _ _ _ | .sta _ | .stx _ | .stl _ | .stch _ => false

/-! ### Safe runs -/

/-- The machine stopped because its program ended, not because of a failure (R127, R276). -/
def EndedCleanly (s : State) : Prop := s.runnable = false ∧ s.report = none

/-- The machine stopped by a fatal condition (R133). -/
def Failed (s : State) : Prop := s.runnable = false ∧ s.report ≠ none

end Sys2Proof.Machine
end

