-- ==== Sys2Proof/Certificates/Slice0/Obligations.lean ====
section
/-! DEFINITION. The statements for the provers. Each docstring names the rule of spec/ it formalises; what rests on the
model's own choice says so and names the log entry. -/

open Sys2Proof Sys2Proof.Machine

/-! ### Encoding (spec 30) -/

/-- Some instruction bytes of the spec's own vectors decode to the instruction they stand for (95 section 2.2). -/
def Obligations.SpecBytesDecode : Prop :=
  decodeBytes [0x03#8, 0x20#8, 0x10#8] = .ok (.lda ⟨true, true, false, false, true, .disp 0x010#12⟩) ∧
  decodeBytes [0x01#8, 0x11#8, 0x23#8, 0x45#8] = .ok (.lda ⟨false, true, false, false, false, .addr 0x12345#20⟩) ∧
  decodeBytes [0x57#8, 0xA0#8, 0x08#8] = .ok (.stch ⟨true, true, true, false, true, .disp 0x008#12⟩) ∧
  decodeBytes [0xB4#8, 0x10#8] = .ok (.clear 0#2 1#4 0#4) ∧
  decodeBytes [0xA0#8, 0x04#8] = .ok (.compr 0#2 0#4 4#4) ∧
  decodeBytes [0xB7#8, 0x30#8] = .ok (.clear 3#2 3#4 0#4) ∧
  decodeBytes [0x18#8, 0x00#8, 0x00#8] = .error (.unknownOpcode 0x18#8)

/-- Decoding the bytes of any instruction, whatever follows them, gives that instruction back: no bit of an encoding is
dropped, the ignored ones included. -/
def Obligations.DecodeInvertsEncode : Prop :=
  ∀ (i : Instr) (rest : List Byte), decodeBytes (encode i ++ rest) = .ok i

/-- Whatever four bytes decode to an instruction, encoding it gives its bytes back: each byte sequence has one meaning and
each instruction one encoding. -/
def Obligations.EncodeInvertsDecode : Prop :=
  ∀ (b1 b2 b3 b4 : Byte) (i : Instr), decode b1 b2 b3 b4 = .ok i → encode i = [b1, b2, b3, b4].take i.length

/-- R90: the 44 unassigned values of `byte1 & 0xFC` are rejected, with the first byte, and nothing else is. -/
def Obligations.UnassignedOpcodesRejected : Prop :=
  ∀ b1 b2 b3 b4 : Byte,
    ((b1 &&& 0xFC#8).toNat ∈
      [0x04, 0x08, 0x18, 0x1C, 0x20, 0x24, 0x2C, 0x34, 0x40, 0x44, 0x58, 0x5C, 0x60, 0x64, 0x6C, 0x70, 0x78, 0x7C,
       0x80, 0x84, 0x88, 0x8C] ++
      [0x90, 0x94, 0x98, 0x9C, 0xA4, 0xA8, 0xAC, 0xB0, 0xBC, 0xC0, 0xC4, 0xC8, 0xCC, 0xD0, 0xD4, 0xE4, 0xE8, 0xEC,
       0xF0, 0xF4, 0xF8, 0xFC] →
      decode b1 b2 b3 b4 = .error (.unknownOpcode b1)) ∧
    ((b1 &&& 0xFC#8).toNat ∉
      [0x04, 0x08, 0x18, 0x1C, 0x20, 0x24, 0x2C, 0x34, 0x40, 0x44, 0x58, 0x5C, 0x60, 0x64, 0x6C, 0x70, 0x78, 0x7C,
       0x80, 0x84, 0x88, 0x8C] ++
      [0x90, 0x94, 0x98, 0x9C, 0xA4, 0xA8, 0xAC, 0xB0, 0xBC, 0xC0, 0xC4, 0xC8, 0xCC, 0xD0, 0xD4, 0xE4, 0xE8, 0xEC,
       0xF0, 0xF4, 0xF8, 0xFC] →
      ∃ i, decode b1 b2 b3 b4 = .ok i)

/-- R87: the length is 2 when the opcode table gives CLEAR, COMPR or TIXR for the masked first byte, whatever the other bits
are; otherwise 4 when bit 4 of byte 2 is 1 and 3 when it is 0. -/
def Obligations.LengthByOpcodeThenE : Prop :=
  ∀ (b1 b2 b3 b4 : Byte) (i : Instr), decode b1 b2 b3 b4 = .ok i →
    i.length =
      if lookupOpcode (b1 &&& 0xFC#8) ∈ [some .CLEAR, some .COMPR, some .TIXR] then 2
      else if b2.toNat / 16 % 2 = 1 then 4 else 3

/-! ### Reset and initialize (spec 10, 70) -/

/-- R273: the power-on state is the state after `initialize` with no device open and an empty trace, and it is not
runnable. (The environment's pending answers, the model's own fields of log 5, are as at power-on.) -/
def Obligations.PowerOnIsInitialized : Prop :=
  (∀ s : State, s.devices = [] → s.verdicts = State.reset.verdicts → s.inputs = State.reset.inputs →
    s.draws = State.reset.draws → s.initializeMachine = State.reset) ∧
  (∀ id : Byte, State.reset.isOpen id = false) ∧ State.reset.trace = [] ∧ State.reset.runnable = false

/-- R270, R271, R272: what `initialize` resets, from every state; it is idempotent; its result depends on nothing of the
state before it but the device table (and the model's own environment fields, log 5), which it leaves as it is. -/
def Obligations.InitializeResets : Prop :=
  (∀ s : State,
    (∀ a : Int, s.initializeMachine.readByte a = 0#8) ∧ (∀ r : Reg, s.initializeMachine.reg r = 0#24) ∧ s.initializeMachine.f = 0 ∧
    s.initializeMachine.sections = [] ∧ s.initializeMachine.loadBase = 0 ∧ s.initializeMachine.runnable = false ∧
    s.initializeMachine.devices = s.devices ∧ s.initializeMachine.initializeMachine = s.initializeMachine) ∧
  (∀ s s' : State, s.devices = s'.devices → s.verdicts = s'.verdicts → s.inputs = s'.inputs → s.draws = s'.draws →
    s.initializeMachine = s'.initializeMachine)

/-! ### Memory (spec 20) -/

/-- R69: both properties of the source about memory. -/
def Obligations.MemoryProperties : Prop :=
  (∀ (s : State) (a v : Int), s.mem.wf → (s.writeByte a v).readByte a = lo8 v) ∧
  (∀ (s : State) (a : Int), s.readByte (0x10000 + a) = s.readByte a) ∧
  (∀ (s : State) (a v : Int), s.writeByte (0x10000 + a) v = s.writeByte a v) ∧
  (∀ (s : State) (a : Int) (v : Word), s.mem.wf → (s.writeWord a v).readWord a = v)

/-- R53: a word is three bytes big-endian, each address wrapped on its own; a write changes those three cells only. -/
def Obligations.WordAccessors : Prop :=
  (∀ (s : State) (a : Int),
    (s.readWord a).toNat =
      (s.readByte a).toNat * 65536 + (s.readByte (a + 1)).toNat * 256 + (s.readByte (a + 2)).toNat) ∧
  (∀ (s : State) (a : Int) (v : Word), s.mem.wf →
    (s.writeWord a v).readByte a = v.extractLsb' 16 8 ∧
    (s.writeWord a v).readByte (a + 1) = v.extractLsb' 8 8 ∧
    (s.writeWord a v).readByte (a + 2) = v.extractLsb' 0 8 ∧
    KeepsMemoryOutside a 3 s (s.writeWord a v))

/-- R54, R55: an n-byte read is the number its bytes spell big-endian, and an n-byte write puts byte k of v mod 256^n into
cell addr + k. n is at most the size of the memory, so that the n cells are different ones. -/
def Obligations.MultiByteAccessors : Prop :=
  (∀ (m : Memory) (addr : Int) (n k : Nat), k < n →
    m.read addr n / 256 ^ (n - 1 - k) % 256 = (m.readByte (addr + k)).toNat ∧ m.read addr n < 256 ^ n) ∧
  (∀ (m : Memory) (addr v : Int) (n k : Nat), m.wf → n ≤ 65536 → k < n →
    (((m.write addr n v).readByte (addr + k)).toNat : Int) = v % 256 ^ n / 256 ^ (n - 1 - k) % 256)

/-! ### Registers and the comparison -/

/-- R22: a register takes an integer of 24 bits as it is; outside that range `REG_OVERFLOW` decides between the value
modulo 2^24 and `RegisterOverflow`. -/
def Obligations.RegisterWriteRule : Prop :=
  ∀ (s : State) (p : Word) (r : Reg) (v : Int),
    (0 ≤ v ∧ v ≤ 16777215 →
      ∃ t, s.writeReg p r v = .ok t ∧ ((t.reg r).toNat : Int) = v ∧ KeepsRegsBut [r] s t) ∧
    (¬(0 ≤ v ∧ v ≤ 16777215) →
      match Config.regOverflow with
      | .wrap => ∃ t, s.writeReg p r v = .ok t ∧ ((t.reg r).toNat : Int) = v % 16777216 ∧ KeepsRegsBut [r] s t
      | .fault => s.writeReg p r v = .error (.registerOverflow p r v))

/-- R24: which register a 4-bit index names, and the indexes that raise `UnknownRegister`. -/
def Obligations.RegisterIndexes : Prop :=
  ∀ p : Word,
    regAt p 0#4 = .ok .A ∧ regAt p 1#4 = .ok .X ∧ regAt p 2#4 = .ok .L ∧ regAt p 3#4 = .ok .B ∧
    regAt p 4#4 = .ok .S ∧ regAt p 5#4 = .ok .T ∧ regAt p 8#4 = .ok .PC ∧ regAt p 9#4 = .ok .SW ∧
    ∀ k : BitVec 4, k.toNat ∈ [6, 7, 10, 11, 12, 13, 14, 15] → regAt p k = .error (.unknownRegister p k)

/-- R160: `cmp` under either order, as the rule writes it: unsigned reads a pattern as itself, signed24 subtracts 2^24 from
a pattern of 2^23 or more. -/
def Obligations.ComparisonByOrder : Prop :=
  ∀ a b : Word,
    let va : Int :=
      match Config.cmpOrder with
      | .unsigned24 => a.toNat
      | .signed24 => if a.toNat < 8388608 then a.toNat else (a.toNat : Int) - 16777216
    let vb : Int :=
      match Config.cmpOrder with
      | .unsigned24 => b.toNat
      | .signed24 => if b.toNat < 8388608 then b.toNat else (b.toNat : Int) - 16777216
    cmpWords a b = if va < vb then 0xFFFFFF#24 else if va = vb then 0x000000#24 else 0x000001#24

/-! ### The resolver (spec 40 section 2) -/

/-- R122: the resolver on the operand the decoder reads from bytes 1 to 4, step by step as the rule's function, in integer
arithmetic on the bytes. P is the fetch address in PC. -/
def Obligations.ResolverByTheBytes : Prop :=
  ∀ (s : State) (b1 b2 b3 b4 : Byte),
    let n := b1.toNat / 2 % 2
    let i := b1.toNat % 2
    let x := b2.toNat / 128 % 2
    let b := b2.toNat / 64 % 2
    let p := b2.toNat / 32 % 2
    let e := b2.toNat / 16 % 2
    let disp : Int := (b2.toNat % 16) * 256 + b3.toNat
    let len : Nat := if e = 1 then 4 else 3
    let raw : Int := if e = 1 then disp * 256 + b4.toNat else disp
    let field : Int := if e = 1 then raw else if disp < 2048 then disp else disp - 4096
    let ta : Int :=
      if b = 1 then field + (s.reg .B).toNat else if p = 1 then field + s.pc.toNat + len else field
    resolve (decodeOperand b1 b2 b3 b4) s =
      if n = 0 ∧ i = 1 then ⟨raw, true, len⟩
      else if n = 1 ∧ i = 0 then ⟨(s.readWord ta).toNat, false, len⟩
      else if x = 1 then ⟨ta + (s.reg .X).toNat, false, len⟩
      else ⟨ta, false, len⟩

/-- R135: the source's two properties of the resolver. In the second, E is the address steps 4 and 5 compute, by the
function the resolver uses for it; the x flag may be set. -/
def Obligations.ResolverProperties : Prop :=
  (∀ (s : State) (d : BitVec 12),
    resolve ⟨true, true, false, false, true, .disp d⟩ s = ⟨(s.pc.toNat : Int) + 3 + sext12 d, false, 3⟩) ∧
  (∀ (s : State) (x b p : Bool) (f : Field),
    (resolve ⟨true, false, x, b, p, f⟩ s).ea = (s.readWord (baseAddress ⟨true, false, x, b, p, f⟩ s)).toNat ∧
    (resolve ⟨true, false, x, b, p, f⟩ s).imm = false)

/-! ### Loads and stores (spec 41). The fetch address is inside the memory, as R111 says it always is. -/

/-- R141, R142, R143: LDA, LDB, LDT complete; the register takes the raw field when immediate and the word at EA otherwise;
PC falls through; nothing else changes. -/
def Obligations.LoadWordResult : Prop :=
  ∀ (s : State) (o : Operand) (i : Instr) (r : Reg),
    (i, r) ∈ [(Instr.lda o, Reg.A), (Instr.ldb o, Reg.B), (Instr.ldt o, Reg.T)] → s.pc.toNat < 65536 →
    let d := resolve o s
    ∃ t, exec i s = .next t ∧
      ((t.reg r).toNat : Int) = (if d.imm then d.ea else (s.mem.read d.ea 3 : Int)) ∧
      t.pc.toNat = s.pc.toNat + d.len ∧
      KeepsRegsBut [r, .PC] s t ∧ KeepsMemory s t ∧ KeepsDevices s t ∧ KeepsLoaded s t ∧ Executed i.mnemonic s t

/-- R144: LDCH replaces the whole of A by the byte at EA, zero-extended, or by the raw field, not cut to a byte. -/
def Obligations.LoadCharacterResult : Prop :=
  ∀ (s : State) (o : Operand), s.pc.toNat < 65536 →
    let d := resolve o s
    ∃ t, exec (.ldch o) s = .next t ∧
      ((t.reg .A).toNat : Int) = (if d.imm then d.ea else ((s.readByte d.ea).toNat : Int)) ∧
      t.pc.toNat = s.pc.toNat + d.len ∧
      KeepsRegsBut [.A, .PC] s t ∧ KeepsMemory s t ∧ KeepsDevices s t ∧ KeepsLoaded s t ∧ Executed .LDCH s t

/-- R145, R146, R147, R149: STA, STL, STX complete; the three cells from EA on take the register big-endian, whatever the
immediate flag says; every other byte and every register but PC is unchanged. -/
def Obligations.StoreWordResult : Prop :=
  ∀ (s : State) (o : Operand) (i : Instr) (r : Reg),
    (i, r) ∈ [(Instr.sta o, Reg.A), (Instr.stl o, Reg.L), (Instr.stx o, Reg.X)] → s.mem.wf → s.pc.toNat < 65536 →
    let d := resolve o s
    ∃ t, exec i s = .next t ∧
      t.readByte d.ea = (s.reg r).extractLsb' 16 8 ∧
      t.readByte (d.ea + 1) = (s.reg r).extractLsb' 8 8 ∧
      t.readByte (d.ea + 2) = (s.reg r).extractLsb' 0 8 ∧
      KeepsMemoryOutside d.ea 3 s t ∧
      t.pc.toNat = s.pc.toNat + d.len ∧
      KeepsRegsBut [.PC] s t ∧ KeepsDevices s t ∧ KeepsLoaded s t ∧ Executed i.mnemonic s t

/-- R148: STCH stores the low byte of A in exactly one cell. -/
def Obligations.StoreCharacterResult : Prop :=
  ∀ (s : State) (o : Operand), s.mem.wf → s.pc.toNat < 65536 →
    let d := resolve o s
    ∃ t, exec (.stch o) s = .next t ∧
      t.readByte d.ea = (s.reg .A).extractLsb' 0 8 ∧ KeepsMemoryOutside d.ea 1 s t ∧
      t.pc.toNat = s.pc.toNat + d.len ∧
      KeepsRegsBut [.PC] s t ∧ KeepsDevices s t ∧ KeepsLoaded s t ∧ Executed .STCH s t

/-! ### Compare and register-only (spec 42) -/

/-- R161: COMP compares A with the immediate value or the word at EA and replaces the whole of SW. -/
def Obligations.CompareResult : Prop :=
  ∀ (s : State) (o : Operand), s.pc.toNat < 65536 →
    let d := resolve o s
    ∃ (v : Word) (t : State), (v.toNat : Int) = (if d.imm then d.ea else (s.mem.read d.ea 3 : Int)) ∧
      exec (.comp o) s = .next t ∧ t.reg .SW = cmpWords (s.reg .A) v ∧
      t.pc.toNat = s.pc.toNat + d.len ∧
      KeepsRegsBut [.SW, .PC] s t ∧ KeepsMemory s t ∧ KeepsDevices s t ∧ KeepsLoaded s t ∧ Executed .COMP s t

/-- R162: COMPR compares the two registers as they were; PC reads as P; the length is 2. -/
def Obligations.CompareRegistersResult : Prop :=
  ∀ (s : State) (lo : BitVec 2) (r1 r2 : BitVec 4) (ra rb : Reg),
    regOfIndex r1 = some ra → regOfIndex r2 = some rb → s.pc.toNat < 65536 →
    ∃ t, exec (.compr lo r1 r2) s = .next t ∧ t.reg .SW = cmpWords (s.reg ra) (s.reg rb) ∧
      t.pc.toNat = s.pc.toNat + 2 ∧
      KeepsRegsBut [.SW, .PC] s t ∧ KeepsMemory s t ∧ KeepsDevices s t ∧ KeepsLoaded s t ∧ Executed .COMPR s t

/-- R163: CLEAR writes 0 into r1, except that the closing PC write overwrites a cleared PC; r2 is not read. -/
def Obligations.ClearResult : Prop :=
  ∀ (s : State) (lo : BitVec 2) (r1 r2 : BitVec 4) (r : Reg), regOfIndex r1 = some r → s.pc.toNat < 65536 →
    ∃ t, exec (.clear lo r1 r2) s = .next t ∧ (r ≠ .PC → t.reg r = 0#24) ∧
      t.pc.toNat = s.pc.toNat + 2 ∧
      KeepsRegsBut [r, .PC] s t ∧ KeepsMemory s t ∧ KeepsDevices s t ∧ KeepsLoaded s t ∧ Executed .CLEAR s t

/-- R164, below the top of X: X goes up by 1 and is compared with r1 as it is after that and before SW is written. -/
def Obligations.IncrementAndTestResult : Prop :=
  ∀ (s : State) (lo : BitVec 2) (r1 r2 : BitVec 4) (r : Reg),
    regOfIndex r1 = some r → (s.reg .X).toNat < 16777215 → s.pc.toNat < 65536 →
    ∃ t, exec (.tixr lo r1 r2) s = .next t ∧ (t.reg .X).toNat = (s.reg .X).toNat + 1 ∧
      t.reg .SW = cmpWords (t.reg .X) (if r = .X then t.reg .X else s.reg r) ∧
      t.pc.toNat = s.pc.toNat + 2 ∧
      KeepsRegsBut [.X, .SW, .PC] s t ∧ KeepsMemory s t ∧ KeepsDevices s t ∧ KeepsLoaded s t ∧ Executed .TIXR s t

/-- R164, R246 at the top of X: `REG_OVERFLOW = wrap` leaves X = 0 and goes on; `fault` raises `RegisterOverflow` and
changes nothing but the runnable flag and the report. -/
def Obligations.IncrementAtTheTop : Prop :=
  ∀ (s : State) (lo : BitVec 2) (r1 r2 : BitVec 4) (r : Reg),
    regOfIndex r1 = some r → s.reg .X = 0xFFFFFF#24 → s.pc.toNat < 65536 →
    match Config.regOverflow with
    | .wrap =>
      ∃ t, exec (.tixr lo r1 r2) s = .next t ∧ t.reg .X = 0#24 ∧
        t.reg .SW = cmpWords 0#24 (if r = .X then 0#24 else s.reg r) ∧ t.pc.toNat = s.pc.toNat + 2 ∧
        KeepsRegsBut [.X, .SW, .PC] s t ∧ KeepsMemory s t ∧ KeepsDevices s t ∧ KeepsLoaded s t ∧ Executed .TIXR s t
    | .fault =>
      exec (.tixr lo r1 r2) s =
        .next { s with runnable := false, report := some (.registerOverflow s.pc .X 16777216) }

/-- R166, R243: an index an instruction uses and that names no register raises `UnknownRegister`, r1 before r2, and nothing
changes but the runnable flag and what the host is told. -/
def Obligations.UnknownRegisterRaised : Prop :=
  ∀ (s : State) (lo : BitVec 2) (r1 r2 : BitVec 4),
    (regOfIndex r1 = none →
      ∀ i ∈ [Instr.compr lo r1 r2, Instr.clear lo r1 r2, Instr.tixr lo r1 r2],
        exec i s = .next { s with runnable := false, report := some (.unknownRegister s.pc r1) }) ∧
    ((regOfIndex r1).isSome = true → regOfIndex r2 = none →
      exec (.compr lo r1 r2) s =
        .next { s with runnable := false, report := some (.unknownRegister s.pc r2) })

/-! ### Jumps, call and return (spec 43) -/

/-- R170, R171, R172: J always, JEQ when SW = 0, JLT when SW = 0xFFFFFF go to EA, unreduced, when it has 24 bits. -/
def Obligations.JumpTaken : Prop :=
  ∀ (s : State) (o : Operand) (i : Instr),
    (i = .j o ∨ (i = .jeq o ∧ s.reg .SW = 0x000000#24) ∨ (i = .jlt o ∧ s.reg .SW = 0xFFFFFF#24)) →
    0 ≤ (resolve o s).ea → (resolve o s).ea < 16777216 →
    ∃ t, exec i s = .next t ∧ (t.pc.toNat : Int) = (resolve o s).ea ∧
      KeepsRegsBut [.PC] s t ∧ KeepsMemory s t ∧ KeepsDevices s t ∧ KeepsLoaded s t ∧ Executed i.mnemonic s t

/-- R171, R172: JEQ and JLT fall through when SW does not hold the value they test for; the target does not matter then. -/
def Obligations.JumpNotTaken : Prop :=
  ∀ (s : State) (o : Operand) (i : Instr),
    ((i = .jeq o ∧ s.reg .SW ≠ 0x000000#24) ∨ (i = .jlt o ∧ s.reg .SW ≠ 0xFFFFFF#24)) → s.pc.toNat < 65536 →
    ∃ t, exec i s = .next t ∧ t.pc.toNat = s.pc.toNat + o.field.len ∧
      KeepsRegsBut [.PC] s t ∧ KeepsMemory s t ∧ KeepsDevices s t ∧ KeepsLoaded s t ∧ Executed i.mnemonic s t

/-- R173: JSUB leaves the return address in L and goes to EA, which was resolved with the old registers. -/
def Obligations.SubroutineCallResult : Prop :=
  ∀ (s : State) (o : Operand), s.pc.toNat < 65536 → 0 ≤ (resolve o s).ea → (resolve o s).ea < 16777216 →
    ∃ t, exec (.jsub o) s = .next t ∧ (t.reg .L).toNat = s.pc.toNat + o.field.len ∧
      (t.pc.toNat : Int) = (resolve o s).ea ∧
      KeepsRegsBut [.L, .PC] s t ∧ KeepsMemory s t ∧ KeepsDevices s t ∧ KeepsLoaded s t ∧ Executed .JSUB s t

/-- R174: RSUB goes to L whatever its other bits say; L is unchanged. -/
def Obligations.SubroutineReturnResult : Prop :=
  ∀ (s : State) (o : Operand),
    ∃ t, exec (.rsub o) s = .next t ∧ t.pc = s.reg .L ∧
      KeepsRegsBut [.PC] s t ∧ KeepsMemory s t ∧ KeepsDevices s t ∧ KeepsLoaded s t ∧ Executed .RSUB s t

/-- R124 (b) and R22: a taken jump or JSUB to a target outside 24 bits: `wrap` puts the target modulo 2^24 into PC, `fault`
raises `RegisterOverflow` and nothing else changes, L included. -/
def Obligations.JumpOutsideTwentyFourBits : Prop :=
  ∀ (s : State) (o : Operand) (i : Instr),
    (i = .j o ∨ (i = .jeq o ∧ s.reg .SW = 0x000000#24) ∨ (i = .jlt o ∧ s.reg .SW = 0xFFFFFF#24) ∨ i = .jsub o) →
    s.pc.toNat < 65536 → ¬(0 ≤ (resolve o s).ea ∧ (resolve o s).ea < 16777216) →
    match Config.regOverflow with
    | .wrap =>
      ∃ t, exec i s = .next t ∧ (t.pc.toNat : Int) = (resolve o s).ea % 16777216 ∧
        (t.reg .L).toNat = (if i = .jsub o then s.pc.toNat + o.field.len else (s.reg .L).toNat) ∧
        KeepsRegsBut [.L, .PC] s t ∧ KeepsMemory s t ∧ KeepsDevices s t ∧ KeepsLoaded s t ∧ Executed i.mnemonic s t
    | .fault =>
      exec i s =
        .next { s with runnable := false, report := some (.registerOverflow s.pc .PC (resolve o s).ea) }

/-! ### Devices (spec 44) -/

/-- R183 on a device that is open: SW = 1; no input consumed, no output written. -/
def Obligations.TestOpenDevice : Prop :=
  ∀ (s : State) (o : Operand), s.pc.toNat < 65536 → s.isOpen (s.readByte (resolve o s).ea) = true →
    ∃ t, exec (.td o) s = .next t ∧ t.reg .SW = 0x000001#24 ∧ t.pc.toNat = s.pc.toNat + o.field.len ∧
      KeepsRegsBut [.SW, .PC] s t ∧ KeepsMemory s t ∧ KeepsDevices s t ∧ KeepsLoaded s t ∧ Executed .TD s t

/-- R183, R180 on a device that is not open, whatever the environment's verdict is: SW is 1 exactly when the device is
open afterwards, and that is the verdict; no output is written and no other device changes. The verdict is used up: a ready one leaves the
list, a drawn one advances the counter (log 5). -/
def Obligations.TestClosedDevice : Prop :=
  ∀ (s : State) (o : Operand), s.pc.toNat < 65536 → devicesWf s.devices →
    s.isOpen (s.readByte (resolve o s).ea) = false →
    ∃ t, exec (.td o) s = .next t ∧
      t.isOpen (s.readByte (resolve o s).ea) = (s.drawVerdict).1 ∧
      t.reg .SW = (if (s.drawVerdict).1 then 0x000001#24 else 0x000000#24) ∧
      t.deviceOutput (s.readByte (resolve o s).ea) = s.deviceOutput (s.readByte (resolve o s).ea) ∧
      ((s.drawVerdict).1 = false → t.device (s.readByte (resolve o s).ea) = s.device (s.readByte (resolve o s).ea)) ∧
      KeepsOtherDevices (s.readByte (resolve o s).ea) s t ∧ t.inputs = s.inputs ∧
      t.verdicts = s.verdicts.tail ∧ (s.verdicts = [] → s.draws < t.draws) ∧
      t.pc.toNat = s.pc.toNat + o.field.len ∧
      KeepsRegsBut [.SW, .PC] s t ∧ KeepsMemory s t ∧ KeepsLoaded s t ∧ Executed .TD s t

/-- R184 on an open device: with the environment's next answer, A takes the byte sign-extended or 0 on a short read; SW and
the output are unchanged; one input position is consumed. The answer is used up: a ready one leaves the list, a drawn one
advances the counter (log 5). -/
def Obligations.ReadDeviceResult : Prop :=
  ∀ (s : State) (o : Operand), s.pc.toNat < 65536 → devicesWf s.devices →
    s.isOpen (s.readByte (resolve o s).ea) = true →
    ∃ t, exec (.rd o) s = .next t ∧
      ((t.reg .A).toNat =
        match (s.drawInput).1 with
        | none => 0
        | some v => if v.toNat < 128 then v.toNat else 0xFFFF00 + v.toNat) ∧
      (t.device (s.readByte (resolve o s).ea)).cursor = (s.device (s.readByte (resolve o s).ea)).cursor + 1 ∧
      t.isOpen (s.readByte (resolve o s).ea) = true ∧
      t.deviceOutput (s.readByte (resolve o s).ea) = s.deviceOutput (s.readByte (resolve o s).ea) ∧
      KeepsOtherDevices (s.readByte (resolve o s).ea) s t ∧ t.verdicts = s.verdicts ∧
      t.inputs = s.inputs.tail ∧ (s.inputs = [] → s.draws < t.draws) ∧
      t.pc.toNat = s.pc.toNat + o.field.len ∧
      KeepsRegsBut [.A, .PC] s t ∧ KeepsMemory s t ∧ KeepsLoaded s t ∧ Executed .RD s t

/-- R185 on an open device: the low byte of A is appended to the output, at once; A is unchanged. -/
def Obligations.WriteDeviceResult : Prop :=
  ∀ (s : State) (o : Operand), s.pc.toNat < 65536 → devicesWf s.devices →
    s.isOpen (s.readByte (resolve o s).ea) = true →
    ∃ t, exec (.wd o) s = .next t ∧
      t.deviceOutput (s.readByte (resolve o s).ea) =
        s.deviceOutput (s.readByte (resolve o s).ea) ++ [(s.reg .A).extractLsb' 0 8] ∧
      t.isOpen (s.readByte (resolve o s).ea) = true ∧
      (t.device (s.readByte (resolve o s).ea)).cursor = (s.device (s.readByte (resolve o s).ea)).cursor ∧
      KeepsOtherDevices (s.readByte (resolve o s).ea) s t ∧ t.verdicts = s.verdicts ∧ t.inputs = s.inputs ∧
      t.pc.toNat = s.pc.toNat + o.field.len ∧
      KeepsRegsBut [.PC] s t ∧ KeepsMemory s t ∧ KeepsLoaded s t ∧ Executed .WD s t

/-- R244: RD and WD on a device that is not open raise `DeviceNotOpen`, and nothing changes but the runnable flag and what
the host is told (log 1); TD never raises it. -/
def Obligations.DeviceNotOpenRaised : Prop :=
  (∀ (s : State) (o : Operand), s.isOpen (s.readByte (resolve o s).ea) = false →
    ∀ i ∈ [Instr.rd o, Instr.wd o],
      exec i s =
        .next { s with runnable := false, report := some (.deviceNotOpen s.pc (s.readByte (resolve o s).ea)) }) ∧
  (∀ (s t : State) (o : Operand) (p : Word) (id : Byte), exec (.td o) s = .next t →
    t.report ≠ some (.deviceNotOpen p id))

/-! ### The step (spec 40 section 1, 60) -/

/-- When the machine is runnable and the bytes at PC decode to an instruction, the step is that instruction's exec and
nothing more: exec itself writes PC, outputs, trace and the runnable flag (R110). The instruction need not be well
formed. -/
def Obligations.StepRunsTheDecodedInstruction : Prop :=
  ∀ (s : State) (i : Instr), s.runnable = true →
    decode (s.readByte s.pc.toNat) (s.readByte (s.pc.toNat + 1)) (s.readByte (s.pc.toNat + 2))
      (s.readByte (s.pc.toNat + 3)) = .ok i →
    step s = exec i s

/-- R242: an opcode with no table entry raises `UnknownOpcode`, and nothing changes but the runnable flag and what the host
is told. -/
def Obligations.UnknownOpcodeRaised : Prop :=
  ∀ s : State, s.runnable = true → lookupOpcode (s.readByte s.pc.toNat &&& 0xFC#8) = none →
    step s =
      .next { s with runnable := false, report := some (.unknownOpcode s.pc (s.readByte s.pc.toNat)) }

/-- R128: a step on a machine that is not runnable changes no register and no memory cell, extends no trace, closes every
device, and leaves the machine not runnable. That F and the loader's results are unchanged too is the model's reading of
R128 (log 14, DEDUCED); nothing is said of the latches. -/
def Obligations.StoppedStepClosesDevices : Prop :=
  ∀ s : State, s.runnable = false → devicesWf s.devices →
    ∃ t, step s = .next t ∧ t.regs = s.regs ∧ t.mem = s.mem ∧ t.trace = s.trace ∧ t.runnable = false ∧ KeepsLoaded s t ∧
      ∀ id : Byte, t.isOpen id = false

/-- R128: a machine that has stopped stays stopped through any number of steps, with its registers and memory. -/
def Obligations.StoppedStaysStopped : Prop :=
  ∀ (k : Nat) (s : State), s.runnable = false →
    ∃ t, Host.Core.run Sys2Proof.core k s = .next t ∧ t.runnable = false ∧ t.regs = s.regs ∧ t.mem = s.mem ∧
      t.trace = s.trace

/-- R133: a step that raised a fatal condition changed nothing but the runnable flag and the report that holds the
condition: registers, memory, devices, outputs and trace are as before. (That the condition is taken as a next state with
a report is log 1.) -/
def Obligations.FailedStepChangesNothing : Prop :=
  ∀ (s t : State) (k : Fault), s.runnable = true → step s = .next t → t.report = some k →
    t = { s with runnable := false, report := some k }

/-- R127, R276: after a step that executed an instruction the machine is runnable exactly when the new PC is neither 0 nor
65,536 or more. -/
def Obligations.HaltAfterInstruction : Prop :=
  ∀ s t : State, s.runnable = true → step s = .next t → t.report = none →
    (t.runnable = true ↔ t.pc.toNat ≠ 0 ∧ t.pc.toNat < 65536)

/-- R130, R131: an executed step appends its mnemonic to the trace and reports mnemonic, fetch address, length, effective
address (0 for a register-only instruction; for the others but RSUB the integer or its value modulo 65,536) and the
device touched. -/
def Obligations.StepReports : Prop :=
  ∀ s t : State, s.runnable = true → step s = .next t → t.report = none →
    ∃ i, s.fetchDecode = .ok i ∧ t.trace = s.trace ++ [i.mnemonic] ∧
      t.outputs.mnemonic = some i.mnemonic ∧ t.outputs.pc = s.pc ∧ t.outputs.len = i.length ∧
      (i.operand? = none → t.outputs.ea = 0) ∧
      (∀ o, i.operand? = some o → i.mnemonic ≠ .RSUB →
        t.outputs.ea = (resolve o s).ea ∨ t.outputs.ea = (a16 (resolve o s).ea : Int)) ∧
      (usesDevice i = false → t.outputs.device = none) ∧
      (∀ o, i.operand? = some o → usesDevice i = true → t.outputs.device = some (s.readByte (resolve o s).ea))

/-- Every step of every state answers a next state: no instruction and no byte sequence ends the machine in a fault or a
refusal. -/
def Obligations.StepAlwaysAnswers : Prop := ∀ s : State, ∃ t, step s = .next t

/-! ### Whole-machine rules -/

/-- The invariant holds at power-on. -/
def Obligations.PowerOnMeetsInvariant : Prop := Inv State.reset

/-- Every step keeps the invariant: canonical memory and tables, SW a condition value, S = 0, a runnable machine's PC
inside the memory, a failed machine not runnable. -/
def Obligations.StepKeepsInvariant : Prop := ∀ s t : State, Inv s → step s = .next t → Inv t

/-- Whatever the host does (load any text, initialize, step, shut down), the machine meets the invariant. -/
def Obligations.ReachableStatesMeetInvariant : Prop := ∀ s : State, Reachable s → Inv s

/-- R46: an instruction writes no register but PC and the ones the table gives it. -/
def Obligations.InstructionsWriteTheirRegistersOnly : Prop :=
  ∀ (i : Instr) (s t : State), exec i s = .next t → KeepsRegsBut (.PC :: writesOf i) s t

/-- R46: only STA, STL, STX and STCH change memory. -/
def Obligations.OnlyStoresChangeMemory : Prop :=
  ∀ (i : Instr) (s t : State), exec i s = .next t → storesToMemory i = false → t.mem = s.mem

/-- R186, R190: a device becomes open only by a TD that names it, and a running machine closes none. -/
def Obligations.OnlyTestOpensDevices : Prop :=
  ∀ (s t : State) (id : Byte), s.runnable = true → devicesWf s.devices → step s = .next t →
    (s.isOpen id = true → t.isOpen id = true) ∧
    (s.isOpen id = false → t.isOpen id = true →
      ∃ o, s.fetchDecode = .ok (.td o) ∧ s.readByte (resolve o s).ea = id)

/-- R68: what a device was sent only grows, by one byte at a time, the low byte of A, at a WD that names it. -/
def Obligations.OutputGrowsByWriteOnly : Prop :=
  ∀ (s t : State) (id : Byte), devicesWf s.devices → step s = .next t →
    t.deviceOutput id = s.deviceOutput id ∨
      ∃ o, s.fetchDecode = .ok (.wd o) ∧ s.readByte (resolve o s).ea = id ∧
        t.deviceOutput id = s.deviceOutput id ++ [(s.reg .A).extractLsb' 0 8]

/-- R60, R180: an instruction that is no device instruction neither reads nor writes the device table or the environment's
pending answers: with any others it does the same, and leaves those as they are. -/
def Obligations.OtherInstructionsIgnoreDevices : Prop :=
  ∀ (i : Instr) (s t : State) (ds : List (Nat × Handle)) (vs : List Bool) (ins : List (Option Byte)),
    usesDevice i = false → exec i s = .next t →
    exec i { s with devices := ds, verdicts := vs, inputs := ins } =
      .next { t with devices := ds, verdicts := vs, inputs := ins }

/-! ### The loader (spec 50) -/

/-- R210, R211, R216: a Header opens a section at the load base, or where the previous section ends by its declared length,
and enters it in the map. -/
def Obligations.HeaderOpensSection : Prop :=
  ∀ (n : Nat) (cs name : List Char) (length : Nat) (ls : LoadState), parseHeader cs = some (name, length) →
    ∃ ls', pass1Header n cs ls = .ok ls' ∧
      ls'.cur = some ⟨name, (match ls.cur with | none => ls.machine.loadBase | some d => d.load + d.length), length⟩ ∧
      (∀ d, ls'.cur = some d → d ∈ ls'.machine.sections) ∧ ls'.machine.mem = ls.machine.mem ∧
      ls'.machine.regs = ls.machine.regs

/-- R206, R211: a well-formed Text record puts its bytes, in order, into the cells from its offset plus the section's load
address on, each address wrapped, and changes no other cell; a malformed one raises `MalformedRecord`. A record holds at
most 255 bytes. -/
def Obligations.TextRecordPlacesBytes : Prop :=
  ∀ (n : Nat) (cs : List Char) (ls : LoadState) (d : Descriptor), ls.cur = some d → ls.machine.mem.wf →
    (parseText cs = none → pass1Text n cs ls = .error (.malformedRecord n)) ∧
    (∀ off vs, parseText cs = some (off, vs) → vs.length ≤ 255 ∧
      ∃ ls', pass1Text n cs ls = .ok ls' ∧
        (∀ (k : Nat) (v : Byte), vs[k]? = some v → ls'.machine.readByte ((off + d.load : Nat) + k) = v) ∧
        KeepsMemoryOutside (off + d.load : Nat) vs.length ls.machine ls'.machine)

/-- R212, R213, R214: a Modification record adds or subtracts the symbol's address to the field of ceil(h/2) bytes, modulo
256^n, and changes no other cell; a symbol no table defines raises `UnresolvedSymbol`. -/
def Obligations.ModificationAdjustsField : Prop :=
  ∀ (n : Nat) (cs : List Char) (ls : LoadState) (d : Descriptor) (r : Modification),
    ls.cur = some d → ls.machine.mem.wf → parseModification cs = some r →
    (lookupSymbol ls.tables r.sym = none → pass2Modify n cs ls = .error (.unresolvedSymbol r.sym)) ∧
    (∀ v, lookupSymbol ls.tables r.sym = some v →
      ∃ ls', pass2Modify n cs ls = .ok ls' ∧
        (ls'.machine.mem.read (r.offset + d.load : Nat) ((r.halfBytes + 1) / 2) : Int) =
          ((ls.machine.mem.read (r.offset + d.load : Nat) ((r.halfBytes + 1) / 2) : Int) +
            (if r.plus then (v : Int) else -(v : Int))) % 256 ^ ((r.halfBytes + 1) / 2) ∧
        KeepsMemoryOutside (r.offset + d.load : Nat) ((r.halfBytes + 1) / 2) ls.machine ls'.machine)

/-- R213: the first section in load order that defines a symbol wins (the tables stand newest first). -/
def Obligations.FirstSectionWins : Prop :=
  ∀ (t : SymbolTable) (ts : List SymbolTable) (sym : List Char),
    lookupSymbol (ts ++ [t]) sym =
      match lookupIn t sym with
      | some v => some v
      | none => lookupSymbol ts sym

/-- R217: a D, T, E or M record before any Header raises `RecordBeforeHeader`. -/
def Obligations.RecordBeforeHeaderRaised : Prop :=
  ∀ (n : Nat) (c : Char) (cs : List Char) (ls : LoadState), ls.cur = none →
    (c ∈ ['D', 'T', 'E'] → pass1Line n (c :: cs) ls = .error (.recordBeforeHeader n)) ∧
    (c = 'M' → pass2Line n (c :: cs) ls = .error (.recordBeforeHeader n))

/-- R132, R221, R272: a load that reports no failure leaves every register 0, PC included, the trace empty and the machine
runnable; the device table is as before. -/
def Obligations.LoadSucceeds : Prop :=
  ∀ (text : List Char) (s : State), (s.load text).report = none →
    (∀ r : Reg, (s.load text).reg r = 0#24) ∧ (s.load text).runnable = true ∧ (s.load text).trace = [] ∧
      (s.load text).f = 0 ∧ (s.load text).devices = s.devices

/-- R132, R219, R247: a load that fails leaves PC 0 and the machine not runnable, and the failure is one of the three
loader conditions. -/
def Obligations.LoadFails : Prop :=
  ∀ (text : List Char) (s : State) (k : Fault), (s.load text).report = some k →
    (∀ r : Reg, (s.load text).reg r = 0#24) ∧ (s.load text).runnable = false ∧
      (s.load text).devices = s.devices ∧
      ((∃ sym, k = .unresolvedSymbol sym) ∨ (∃ n, k = .malformedRecord n) ∨ (∃ n, k = .recordBeforeHeader n))

/-! ### Observers and the reference device -/

/-- R134: the active section owns PC, and among the sections that do it has the greatest load address; there is none when
no section owns PC. -/
def Obligations.ActiveSectionOwnsPc : Prop :=
  ∀ s : State,
    (∀ d, s.activeSection = some d →
      d ∈ s.sections ∧ d.load ≤ s.pc.toNat ∧ s.pc.toNat < d.load + d.length ∧
      ∀ e ∈ s.sections, e.load ≤ s.pc.toNat → s.pc.toNat < e.load + e.length → e.load ≤ d.load) ∧
    (s.activeSection = none → ∀ d ∈ s.sections, ¬(d.load ≤ s.pc.toNat ∧ s.pc.toNat < d.load + d.length))

/-- R192: reading more bytes than the reference device has left is a short read: no failure, and A is 0, whatever the count
asked for. -/
def Obligations.ReferenceShortRead : Prop :=
  ∀ (d : RefDevice) (count : Nat) (a : Word), d.isOpen = true →
    (d.input.drop (refPosition d.cursor)).length < count →
    ∃ d', d.read count = some (none, d') ∧ refReadIntoA a none = 0#24 ∧ d'.cursor = d.cursor + 1 ∧ d'.isOpen = true
end

