-- ==== Sys2Proof/Laws/State.lean ====
section
/-! SUPPORT. One lemma per field per update of State (all true by rfl), and the register file's own laws, so that no later
proof unfolds a record update. -/

namespace Sys2Proof.Machine

@[simp] theorem Regs.get_set_same (g : Regs) (r : Reg) (w : Word) : (g.set r w).get r = w := by
  cases r <;> rfl

theorem Regs.get_set_other (g : Regs) {r q : Reg} (w : Word) (h : q ≠ r) : (g.set r w).get q = g.get q := by
  cases r <;> cases q <;> first | rfl | exact absurd rfl h

@[simp] theorem Regs.get_zero (r : Reg) : Regs.zero.get r = 0#24 := by
  cases r <;> rfl

@[simp] theorem State.reg_setReg_same (s : State) (r : Reg) (w : Word) : (s.setReg r w).reg r = w :=
  Regs.get_set_same s.regs r w

theorem State.reg_setReg_other (s : State) {r q : Reg} (w : Word) (h : q ≠ r) : (s.setReg r w).reg q = s.reg q :=
  Regs.get_set_other s.regs w h

theorem State.reg_setReg (s : State) (r q : Reg) (w : Word) :
    (s.setReg r w).reg q = if q = r then w else s.reg q := by
  split
  · subst q; simp
  · exact State.reg_setReg_other s w ‹_›

@[simp] theorem State.setReg_regs (s : State) (r : Reg) (w : Word) : (s.setReg r w).regs = s.regs.set r w := rfl
@[simp] theorem State.setReg_f (s : State) (r : Reg) (w : Word) : (s.setReg r w).f = s.f := rfl
@[simp] theorem State.setReg_mem (s : State) (r : Reg) (w : Word) : (s.setReg r w).mem = s.mem := rfl
@[simp] theorem State.setReg_sections (s : State) (r : Reg) (w : Word) : (s.setReg r w).sections = s.sections := rfl
@[simp] theorem State.setReg_loadBase (s : State) (r : Reg) (w : Word) : (s.setReg r w).loadBase = s.loadBase := rfl
@[simp] theorem State.setReg_entry (s : State) (r : Reg) (w : Word) : (s.setReg r w).entry = s.entry := rfl
@[simp] theorem State.setReg_devices (s : State) (r : Reg) (w : Word) : (s.setReg r w).devices = s.devices := rfl
@[simp] theorem State.setReg_runnable (s : State) (r : Reg) (w : Word) : (s.setReg r w).runnable = s.runnable := rfl
@[simp] theorem State.setReg_outputs (s : State) (r : Reg) (w : Word) : (s.setReg r w).outputs = s.outputs := rfl
@[simp] theorem State.setReg_trace (s : State) (r : Reg) (w : Word) : (s.setReg r w).trace = s.trace := rfl
@[simp] theorem State.setReg_report (s : State) (r : Reg) (w : Word) : (s.setReg r w).report = s.report := rfl
@[simp] theorem State.setReg_verdicts (s : State) (r : Reg) (w : Word) : (s.setReg r w).verdicts = s.verdicts := rfl
@[simp] theorem State.setReg_inputs (s : State) (r : Reg) (w : Word) : (s.setReg r w).inputs = s.inputs := rfl
@[simp] theorem State.setReg_draws (s : State) (r : Reg) (w : Word) : (s.setReg r w).draws = s.draws := rfl

@[simp] theorem State.writeByte_regs (s : State) (addr v : Int) : (s.writeByte addr v).regs = s.regs := rfl
@[simp] theorem State.writeByte_f (s : State) (addr v : Int) : (s.writeByte addr v).f = s.f := rfl
@[simp] theorem State.writeByte_mem (s : State) (addr v : Int) : (s.writeByte addr v).mem = s.mem.writeByte addr v := rfl
@[simp] theorem State.writeByte_sections (s : State) (addr v : Int) : (s.writeByte addr v).sections = s.sections := rfl
@[simp] theorem State.writeByte_loadBase (s : State) (addr v : Int) : (s.writeByte addr v).loadBase = s.loadBase := rfl
@[simp] theorem State.writeByte_entry (s : State) (addr v : Int) : (s.writeByte addr v).entry = s.entry := rfl
@[simp] theorem State.writeByte_devices (s : State) (addr v : Int) : (s.writeByte addr v).devices = s.devices := rfl
@[simp] theorem State.writeByte_runnable (s : State) (addr v : Int) : (s.writeByte addr v).runnable = s.runnable := rfl
@[simp] theorem State.writeByte_outputs (s : State) (addr v : Int) : (s.writeByte addr v).outputs = s.outputs := rfl
@[simp] theorem State.writeByte_trace (s : State) (addr v : Int) : (s.writeByte addr v).trace = s.trace := rfl
@[simp] theorem State.writeByte_report (s : State) (addr v : Int) : (s.writeByte addr v).report = s.report := rfl
@[simp] theorem State.writeByte_verdicts (s : State) (addr v : Int) : (s.writeByte addr v).verdicts = s.verdicts := rfl
@[simp] theorem State.writeByte_inputs (s : State) (addr v : Int) : (s.writeByte addr v).inputs = s.inputs := rfl
@[simp] theorem State.writeByte_draws (s : State) (addr v : Int) : (s.writeByte addr v).draws = s.draws := rfl

@[simp] theorem State.writeWord_regs (s : State) (addr : Int) (v : Word) : (s.writeWord addr v).regs = s.regs := rfl
@[simp] theorem State.writeWord_f (s : State) (addr : Int) (v : Word) : (s.writeWord addr v).f = s.f := rfl
@[simp] theorem State.writeWord_mem (s : State) (addr : Int) (v : Word) : (s.writeWord addr v).mem = s.mem.write addr 3 v.toNat := rfl
@[simp] theorem State.writeWord_sections (s : State) (addr : Int) (v : Word) : (s.writeWord addr v).sections = s.sections := rfl
@[simp] theorem State.writeWord_loadBase (s : State) (addr : Int) (v : Word) : (s.writeWord addr v).loadBase = s.loadBase := rfl
@[simp] theorem State.writeWord_entry (s : State) (addr : Int) (v : Word) : (s.writeWord addr v).entry = s.entry := rfl
@[simp] theorem State.writeWord_devices (s : State) (addr : Int) (v : Word) : (s.writeWord addr v).devices = s.devices := rfl
@[simp] theorem State.writeWord_runnable (s : State) (addr : Int) (v : Word) : (s.writeWord addr v).runnable = s.runnable := rfl
@[simp] theorem State.writeWord_outputs (s : State) (addr : Int) (v : Word) : (s.writeWord addr v).outputs = s.outputs := rfl
@[simp] theorem State.writeWord_trace (s : State) (addr : Int) (v : Word) : (s.writeWord addr v).trace = s.trace := rfl
@[simp] theorem State.writeWord_report (s : State) (addr : Int) (v : Word) : (s.writeWord addr v).report = s.report := rfl
@[simp] theorem State.writeWord_verdicts (s : State) (addr : Int) (v : Word) : (s.writeWord addr v).verdicts = s.verdicts := rfl
@[simp] theorem State.writeWord_inputs (s : State) (addr : Int) (v : Word) : (s.writeWord addr v).inputs = s.inputs := rfl
@[simp] theorem State.writeWord_draws (s : State) (addr : Int) (v : Word) : (s.writeWord addr v).draws = s.draws := rfl

@[simp] theorem State.raise_regs (s : State) (k : Fault) : (s.raise k).regs = s.regs := rfl
@[simp] theorem State.raise_f (s : State) (k : Fault) : (s.raise k).f = s.f := rfl
@[simp] theorem State.raise_mem (s : State) (k : Fault) : (s.raise k).mem = s.mem := rfl
@[simp] theorem State.raise_sections (s : State) (k : Fault) : (s.raise k).sections = s.sections := rfl
@[simp] theorem State.raise_loadBase (s : State) (k : Fault) : (s.raise k).loadBase = s.loadBase := rfl
@[simp] theorem State.raise_entry (s : State) (k : Fault) : (s.raise k).entry = s.entry := rfl
@[simp] theorem State.raise_devices (s : State) (k : Fault) : (s.raise k).devices = s.devices := rfl
@[simp] theorem State.raise_runnable (s : State) (k : Fault) : (s.raise k).runnable = false := rfl
@[simp] theorem State.raise_outputs (s : State) (k : Fault) : (s.raise k).outputs = s.outputs := rfl
@[simp] theorem State.raise_trace (s : State) (k : Fault) : (s.raise k).trace = s.trace := rfl
@[simp] theorem State.raise_report (s : State) (k : Fault) : (s.raise k).report = some k := rfl
@[simp] theorem State.raise_verdicts (s : State) (k : Fault) : (s.raise k).verdicts = s.verdicts := rfl
@[simp] theorem State.raise_inputs (s : State) (k : Fault) : (s.raise k).inputs = s.inputs := rfl
@[simp] theorem State.raise_draws (s : State) (k : Fault) : (s.raise k).draws = s.draws := rfl

@[simp] theorem State.retire_regs (s : State) (m : Mnemonic) (p : Word) (len : Nat) (ea : Int) (dev : Option Byte) : (s.retire m p len ea dev).regs = s.regs := rfl
@[simp] theorem State.retire_f (s : State) (m : Mnemonic) (p : Word) (len : Nat) (ea : Int) (dev : Option Byte) : (s.retire m p len ea dev).f = s.f := rfl
@[simp] theorem State.retire_mem (s : State) (m : Mnemonic) (p : Word) (len : Nat) (ea : Int) (dev : Option Byte) : (s.retire m p len ea dev).mem = s.mem := rfl
@[simp] theorem State.retire_sections (s : State) (m : Mnemonic) (p : Word) (len : Nat) (ea : Int) (dev : Option Byte) : (s.retire m p len ea dev).sections = s.sections := rfl
@[simp] theorem State.retire_loadBase (s : State) (m : Mnemonic) (p : Word) (len : Nat) (ea : Int) (dev : Option Byte) : (s.retire m p len ea dev).loadBase = s.loadBase := rfl
@[simp] theorem State.retire_entry (s : State) (m : Mnemonic) (p : Word) (len : Nat) (ea : Int) (dev : Option Byte) : (s.retire m p len ea dev).entry = s.entry := rfl
@[simp] theorem State.retire_devices (s : State) (m : Mnemonic) (p : Word) (len : Nat) (ea : Int) (dev : Option Byte) : (s.retire m p len ea dev).devices = s.devices := rfl
@[simp] theorem State.retire_runnable (s : State) (m : Mnemonic) (p : Word) (len : Nat) (ea : Int) (dev : Option Byte) : (s.retire m p len ea dev).runnable = if haltsAt s.pc then false else s.runnable := rfl
@[simp] theorem State.retire_outputs (s : State) (m : Mnemonic) (p : Word) (len : Nat) (ea : Int) (dev : Option Byte) : (s.retire m p len ea dev).outputs = ⟨some m, p, len, ea, dev⟩ := rfl
@[simp] theorem State.retire_trace (s : State) (m : Mnemonic) (p : Word) (len : Nat) (ea : Int) (dev : Option Byte) : (s.retire m p len ea dev).trace = s.trace ++ [m] := rfl
@[simp] theorem State.retire_report (s : State) (m : Mnemonic) (p : Word) (len : Nat) (ea : Int) (dev : Option Byte) : (s.retire m p len ea dev).report = none := rfl
@[simp] theorem State.retire_verdicts (s : State) (m : Mnemonic) (p : Word) (len : Nat) (ea : Int) (dev : Option Byte) : (s.retire m p len ea dev).verdicts = s.verdicts := rfl
@[simp] theorem State.retire_inputs (s : State) (m : Mnemonic) (p : Word) (len : Nat) (ea : Int) (dev : Option Byte) : (s.retire m p len ea dev).inputs = s.inputs := rfl
@[simp] theorem State.retire_draws (s : State) (m : Mnemonic) (p : Word) (len : Nat) (ea : Int) (dev : Option Byte) : (s.retire m p len ea dev).draws = s.draws := rfl

@[simp] theorem State.setDevice_regs (s : State) (id : Byte) (h : Handle) : (s.setDevice id h).regs = s.regs := rfl
@[simp] theorem State.setDevice_f (s : State) (id : Byte) (h : Handle) : (s.setDevice id h).f = s.f := rfl
@[simp] theorem State.setDevice_mem (s : State) (id : Byte) (h : Handle) : (s.setDevice id h).mem = s.mem := rfl
@[simp] theorem State.setDevice_sections (s : State) (id : Byte) (h : Handle) : (s.setDevice id h).sections = s.sections := rfl
@[simp] theorem State.setDevice_loadBase (s : State) (id : Byte) (h : Handle) : (s.setDevice id h).loadBase = s.loadBase := rfl
@[simp] theorem State.setDevice_entry (s : State) (id : Byte) (h : Handle) : (s.setDevice id h).entry = s.entry := rfl
@[simp] theorem State.setDevice_devices (s : State) (id : Byte) (h : Handle) : (s.setDevice id h).devices = sparseSet Handle.untouched s.devices id.toNat h := rfl
@[simp] theorem State.setDevice_runnable (s : State) (id : Byte) (h : Handle) : (s.setDevice id h).runnable = s.runnable := rfl
@[simp] theorem State.setDevice_outputs (s : State) (id : Byte) (h : Handle) : (s.setDevice id h).outputs = s.outputs := rfl
@[simp] theorem State.setDevice_trace (s : State) (id : Byte) (h : Handle) : (s.setDevice id h).trace = s.trace := rfl
@[simp] theorem State.setDevice_report (s : State) (id : Byte) (h : Handle) : (s.setDevice id h).report = s.report := rfl
@[simp] theorem State.setDevice_verdicts (s : State) (id : Byte) (h : Handle) : (s.setDevice id h).verdicts = s.verdicts := rfl
@[simp] theorem State.setDevice_inputs (s : State) (id : Byte) (h : Handle) : (s.setDevice id h).inputs = s.inputs := rfl
@[simp] theorem State.setDevice_draws (s : State) (id : Byte) (h : Handle) : (s.setDevice id h).draws = s.draws := rfl

@[simp] theorem State.devClose_regs (s : State) : s.devClose.regs = s.regs := rfl
@[simp] theorem State.devClose_f (s : State) : s.devClose.f = s.f := rfl
@[simp] theorem State.devClose_mem (s : State) : s.devClose.mem = s.mem := rfl
@[simp] theorem State.devClose_sections (s : State) : s.devClose.sections = s.sections := rfl
@[simp] theorem State.devClose_loadBase (s : State) : s.devClose.loadBase = s.loadBase := rfl
@[simp] theorem State.devClose_entry (s : State) : s.devClose.entry = s.entry := rfl
@[simp] theorem State.devClose_devices (s : State) : s.devClose.devices = closeAll s.devices := rfl
@[simp] theorem State.devClose_runnable (s : State) : s.devClose.runnable = s.runnable := rfl
@[simp] theorem State.devClose_outputs (s : State) : s.devClose.outputs = s.outputs := rfl
@[simp] theorem State.devClose_trace (s : State) : s.devClose.trace = s.trace := rfl
@[simp] theorem State.devClose_report (s : State) : s.devClose.report = s.report := rfl
@[simp] theorem State.devClose_verdicts (s : State) : s.devClose.verdicts = s.verdicts := rfl
@[simp] theorem State.devClose_inputs (s : State) : s.devClose.inputs = s.inputs := rfl
@[simp] theorem State.devClose_draws (s : State) : s.devClose.draws = s.draws := rfl

@[simp] theorem State.idle_regs (s : State) : s.idle.regs = s.regs := rfl
@[simp] theorem State.idle_f (s : State) : s.idle.f = s.f := rfl
@[simp] theorem State.idle_mem (s : State) : s.idle.mem = s.mem := rfl
@[simp] theorem State.idle_sections (s : State) : s.idle.sections = s.sections := rfl
@[simp] theorem State.idle_loadBase (s : State) : s.idle.loadBase = s.loadBase := rfl
@[simp] theorem State.idle_entry (s : State) : s.idle.entry = s.entry := rfl
@[simp] theorem State.idle_devices (s : State) : s.idle.devices = closeAll s.devices := rfl
@[simp] theorem State.idle_runnable (s : State) : s.idle.runnable = s.runnable := rfl
@[simp] theorem State.idle_outputs (s : State) : s.idle.outputs = s.outputs := rfl
@[simp] theorem State.idle_trace (s : State) : s.idle.trace = s.trace := rfl
@[simp] theorem State.idle_report (s : State) : s.idle.report = none := rfl
@[simp] theorem State.idle_verdicts (s : State) : s.idle.verdicts = s.verdicts := rfl
@[simp] theorem State.idle_inputs (s : State) : s.idle.inputs = s.inputs := rfl
@[simp] theorem State.idle_draws (s : State) : s.idle.draws = s.draws := rfl

@[simp] theorem State.openDevice_regs (s : State) (id : Byte) : (s.openDevice id).regs = s.regs := rfl
@[simp] theorem State.openDevice_f (s : State) (id : Byte) : (s.openDevice id).f = s.f := rfl
@[simp] theorem State.openDevice_mem (s : State) (id : Byte) : (s.openDevice id).mem = s.mem := rfl
@[simp] theorem State.openDevice_sections (s : State) (id : Byte) : (s.openDevice id).sections = s.sections := rfl
@[simp] theorem State.openDevice_loadBase (s : State) (id : Byte) : (s.openDevice id).loadBase = s.loadBase := rfl
@[simp] theorem State.openDevice_entry (s : State) (id : Byte) : (s.openDevice id).entry = s.entry := rfl
@[simp] theorem State.openDevice_devices (s : State) (id : Byte) : (s.openDevice id).devices = (s.setDevice id { s.device id with isOpen := true, cursor := Config.cursorAtOpen s.draws }).devices := rfl
@[simp] theorem State.openDevice_runnable (s : State) (id : Byte) : (s.openDevice id).runnable = s.runnable := rfl
@[simp] theorem State.openDevice_outputs (s : State) (id : Byte) : (s.openDevice id).outputs = s.outputs := rfl
@[simp] theorem State.openDevice_trace (s : State) (id : Byte) : (s.openDevice id).trace = s.trace := rfl
@[simp] theorem State.openDevice_report (s : State) (id : Byte) : (s.openDevice id).report = s.report := rfl
@[simp] theorem State.openDevice_verdicts (s : State) (id : Byte) : (s.openDevice id).verdicts = s.verdicts := rfl
@[simp] theorem State.openDevice_inputs (s : State) (id : Byte) : (s.openDevice id).inputs = s.inputs := rfl
@[simp] theorem State.openDevice_draws (s : State) (id : Byte) : (s.openDevice id).draws = s.draws + 1 := rfl

@[simp] theorem State.devWrite_regs (s : State) (id v : Byte) : (s.devWrite id v).regs = s.regs := rfl
@[simp] theorem State.devWrite_f (s : State) (id v : Byte) : (s.devWrite id v).f = s.f := rfl
@[simp] theorem State.devWrite_mem (s : State) (id v : Byte) : (s.devWrite id v).mem = s.mem := rfl
@[simp] theorem State.devWrite_sections (s : State) (id v : Byte) : (s.devWrite id v).sections = s.sections := rfl
@[simp] theorem State.devWrite_loadBase (s : State) (id v : Byte) : (s.devWrite id v).loadBase = s.loadBase := rfl
@[simp] theorem State.devWrite_entry (s : State) (id v : Byte) : (s.devWrite id v).entry = s.entry := rfl
@[simp] theorem State.devWrite_devices (s : State) (id v : Byte) : (s.devWrite id v).devices = (s.setDevice id { s.device id with output := (s.device id).output ++ [v] }).devices := rfl
@[simp] theorem State.devWrite_runnable (s : State) (id v : Byte) : (s.devWrite id v).runnable = s.runnable := rfl
@[simp] theorem State.devWrite_outputs (s : State) (id v : Byte) : (s.devWrite id v).outputs = s.outputs := rfl
@[simp] theorem State.devWrite_trace (s : State) (id v : Byte) : (s.devWrite id v).trace = s.trace := rfl
@[simp] theorem State.devWrite_report (s : State) (id v : Byte) : (s.devWrite id v).report = s.report := rfl
@[simp] theorem State.devWrite_verdicts (s : State) (id v : Byte) : (s.devWrite id v).verdicts = s.verdicts := rfl
@[simp] theorem State.devWrite_inputs (s : State) (id v : Byte) : (s.devWrite id v).inputs = s.inputs := rfl
@[simp] theorem State.devWrite_draws (s : State) (id v : Byte) : (s.devWrite id v).draws = s.draws := rfl

@[simp] theorem State.initializeMachine_regs (s : State) : s.initializeMachine.regs = Regs.zero := rfl
@[simp] theorem State.initializeMachine_f (s : State) : s.initializeMachine.f = 0 := rfl
@[simp] theorem State.initializeMachine_mem (s : State) : s.initializeMachine.mem = [] := rfl
@[simp] theorem State.initializeMachine_sections (s : State) : s.initializeMachine.sections = [] := rfl
@[simp] theorem State.initializeMachine_loadBase (s : State) : s.initializeMachine.loadBase = 0 := rfl
@[simp] theorem State.initializeMachine_entry (s : State) : s.initializeMachine.entry = 0 := rfl
@[simp] theorem State.initializeMachine_devices (s : State) : s.initializeMachine.devices = s.devices := rfl
@[simp] theorem State.initializeMachine_runnable (s : State) : s.initializeMachine.runnable = false := rfl
@[simp] theorem State.initializeMachine_outputs (s : State) : s.initializeMachine.outputs = StepOutputs.unset := rfl
@[simp] theorem State.initializeMachine_trace (s : State) : s.initializeMachine.trace = [] := rfl
@[simp] theorem State.initializeMachine_report (s : State) : s.initializeMachine.report = none := rfl
@[simp] theorem State.initializeMachine_verdicts (s : State) : s.initializeMachine.verdicts = s.verdicts := rfl
@[simp] theorem State.initializeMachine_inputs (s : State) : s.initializeMachine.inputs = s.inputs := rfl
@[simp] theorem State.initializeMachine_draws (s : State) : s.initializeMachine.draws = s.draws := rfl

@[simp] theorem State.setReg_readByte (s : State) (r : Reg) (w : Word) (q : Int) : (s.setReg r w).readByte q = s.readByte q := rfl
@[simp] theorem State.setReg_device (s : State) (r : Reg) (w : Word) (q : Byte) : (s.setReg r w).device q = s.device q := rfl
@[simp] theorem State.setReg_isOpen (s : State) (r : Reg) (w : Word) (q : Byte) : (s.setReg r w).isOpen q = s.isOpen q := rfl
@[simp] theorem State.writeByte_reg (s : State) (addr v : Int) (q : Reg) : (s.writeByte addr v).reg q = s.reg q := rfl
@[simp] theorem State.writeByte_pc (s : State) (addr v : Int) : (s.writeByte addr v).pc = s.pc := rfl
@[simp] theorem State.writeByte_device (s : State) (addr v : Int) (q : Byte) : (s.writeByte addr v).device q = s.device q := rfl
@[simp] theorem State.writeByte_isOpen (s : State) (addr v : Int) (q : Byte) : (s.writeByte addr v).isOpen q = s.isOpen q := rfl
@[simp] theorem State.writeWord_reg (s : State) (addr : Int) (v : Word) (q : Reg) : (s.writeWord addr v).reg q = s.reg q := rfl
@[simp] theorem State.writeWord_pc (s : State) (addr : Int) (v : Word) : (s.writeWord addr v).pc = s.pc := rfl
@[simp] theorem State.writeWord_device (s : State) (addr : Int) (v : Word) (q : Byte) : (s.writeWord addr v).device q = s.device q := rfl
@[simp] theorem State.writeWord_isOpen (s : State) (addr : Int) (v : Word) (q : Byte) : (s.writeWord addr v).isOpen q = s.isOpen q := rfl
@[simp] theorem State.raise_reg (s : State) (k : Fault) (q : Reg) : (s.raise k).reg q = s.reg q := rfl
@[simp] theorem State.raise_pc (s : State) (k : Fault) : (s.raise k).pc = s.pc := rfl
@[simp] theorem State.raise_readByte (s : State) (k : Fault) (q : Int) : (s.raise k).readByte q = s.readByte q := rfl
@[simp] theorem State.raise_device (s : State) (k : Fault) (q : Byte) : (s.raise k).device q = s.device q := rfl
@[simp] theorem State.raise_isOpen (s : State) (k : Fault) (q : Byte) : (s.raise k).isOpen q = s.isOpen q := rfl
@[simp] theorem State.retire_reg (s : State) (m : Mnemonic) (p : Word) (len : Nat) (ea : Int) (dev : Option Byte) (q : Reg) : (s.retire m p len ea dev).reg q = s.reg q := rfl
@[simp] theorem State.retire_pc (s : State) (m : Mnemonic) (p : Word) (len : Nat) (ea : Int) (dev : Option Byte) : (s.retire m p len ea dev).pc = s.pc := rfl
@[simp] theorem State.retire_readByte (s : State) (m : Mnemonic) (p : Word) (len : Nat) (ea : Int) (dev : Option Byte) (q : Int) : (s.retire m p len ea dev).readByte q = s.readByte q := rfl
@[simp] theorem State.retire_device (s : State) (m : Mnemonic) (p : Word) (len : Nat) (ea : Int) (dev : Option Byte) (q : Byte) : (s.retire m p len ea dev).device q = s.device q := rfl
@[simp] theorem State.retire_isOpen (s : State) (m : Mnemonic) (p : Word) (len : Nat) (ea : Int) (dev : Option Byte) (q : Byte) : (s.retire m p len ea dev).isOpen q = s.isOpen q := rfl
@[simp] theorem State.setDevice_reg (s : State) (id : Byte) (h : Handle) (q : Reg) : (s.setDevice id h).reg q = s.reg q := rfl
@[simp] theorem State.setDevice_pc (s : State) (id : Byte) (h : Handle) : (s.setDevice id h).pc = s.pc := rfl
@[simp] theorem State.setDevice_readByte (s : State) (id : Byte) (h : Handle) (q : Int) : (s.setDevice id h).readByte q = s.readByte q := rfl
@[simp] theorem State.devClose_reg (s : State) (q : Reg) : s.devClose.reg q = s.reg q := rfl
@[simp] theorem State.devClose_pc (s : State) : s.devClose.pc = s.pc := rfl
@[simp] theorem State.devClose_readByte (s : State) (q : Int) : s.devClose.readByte q = s.readByte q := rfl
@[simp] theorem State.idle_reg (s : State) (q : Reg) : s.idle.reg q = s.reg q := rfl
@[simp] theorem State.idle_pc (s : State) : s.idle.pc = s.pc := rfl
@[simp] theorem State.idle_readByte (s : State) (q : Int) : s.idle.readByte q = s.readByte q := rfl
@[simp] theorem State.openDevice_reg (s : State) (id : Byte) (q : Reg) : (s.openDevice id).reg q = s.reg q := rfl
@[simp] theorem State.openDevice_pc (s : State) (id : Byte) : (s.openDevice id).pc = s.pc := rfl
@[simp] theorem State.openDevice_readByte (s : State) (id : Byte) (q : Int) : (s.openDevice id).readByte q = s.readByte q := rfl
@[simp] theorem State.devWrite_reg (s : State) (id v : Byte) (q : Reg) : (s.devWrite id v).reg q = s.reg q := rfl
@[simp] theorem State.devWrite_pc (s : State) (id v : Byte) : (s.devWrite id v).pc = s.pc := rfl
@[simp] theorem State.devWrite_readByte (s : State) (id v : Byte) (q : Int) : (s.devWrite id v).readByte q = s.readByte q := rfl

@[simp] theorem State.initializeMachine_device (s : State) (q : Byte) : s.initializeMachine.device q = s.device q := rfl
@[simp] theorem State.initializeMachine_reg (s : State) (q : Reg) : s.initializeMachine.reg q = 0#24 := Regs.get_zero q

@[simp] theorem State.setReg_PC_pc (s : State) (w : Word) : (s.setReg .PC w).pc = w := rfl

theorem State.setReg_pc_other (s : State) {r : Reg} (w : Word) (h : r ≠ .PC) : (s.setReg r w).pc = s.pc :=
  State.reg_setReg_other s w (Ne.symm h)

end Sys2Proof.Machine
end

