-- ==== Sys2Proof/Laws/Memory.lean ====
section
/-! SUPPORT. Sparse tables and the memory array: read after write, and every operation keeps the canonical form. -/

namespace Sys2Proof.Machine

section Sparse
variable {α : Type} {dflt : α}

theorem sparseWf_nil : SparseWf dflt ([] : List (Nat × α)) := ⟨List.Pairwise.nil, by simp⟩

theorem sparseWf_tail {c : Nat × α} {m : List (Nat × α)} (h : SparseWf dflt (c :: m)) : SparseWf dflt m :=
  ⟨(List.pairwise_cons.mp h.1).2, fun d hd => h.2 d (List.mem_cons_of_mem c hd)⟩

theorem sparseWf_cons_iff {c : Nat × α} {m : List (Nat × α)} :
    SparseWf dflt (c :: m) ↔ (∀ d ∈ m, c.1 < d.1) ∧ c.2 ≠ dflt ∧ SparseWf dflt m := by
  simp only [SparseWf, List.pairwise_cons, List.mem_cons, forall_eq_or_imp]
  tauto

/-- Where every key is greater, the table has no entry. -/
theorem sparseGet_of_lt {m : List (Nat × α)} {k : Nat} (h : ∀ d ∈ m, k < d.1) : sparseGet dflt m k = dflt := by
  cases m with
  | nil => rfl
  | cons c rest => simp [sparseGet, h c (by simp)]

theorem mem_sparseSet [DecidableEq α] {m : List (Nat × α)} {k : Nat} {v : α} {c : Nat × α} (h : c ∈ sparseSet dflt m k v) :
    c = (k, v) ∨ c ∈ m := by
  induction m with
  | nil =>
    simp only [sparseSet] at h
    split at h <;> simp_all
  | cons d rest ih =>
    simp only [sparseSet] at h
    split at h
    · split at h <;> simp_all
    · split at h
      · split at h
        · exact .inr (by simp [h])
        · simp at h ⊢; tauto
      · rcases List.mem_cons.mp h with h | h
        · simp [h]
        · rcases ih h with h | h <;> simp [h]

/-- A write keeps the canonical form. -/
theorem sparseSet_wf [DecidableEq α] {m : List (Nat × α)} (h : SparseWf dflt m) (k : Nat) (v : α) :
    SparseWf dflt (sparseSet dflt m k v) := by
  induction m with
  | nil =>
    simp only [sparseSet]
    split
    · exact sparseWf_nil
    · exact sparseWf_cons_iff.mpr ⟨by simp, ‹_›, sparseWf_nil⟩
  | cons c rest ih =>
    obtain ⟨hlt, hne, hrest⟩ := sparseWf_cons_iff.mp h
    simp only [sparseSet]
    split
    · split
      · exact h
      · refine sparseWf_cons_iff.mpr ⟨?_, ‹_›, h⟩
        intro d hd
        rcases List.mem_cons.mp hd with rfl | hd
        · assumption
        · exact lt_trans ‹_› (hlt d hd)
    · split
      · subst k
        split
        · exact hrest
        · exact sparseWf_cons_iff.mpr ⟨hlt, ‹_›, hrest⟩
      · refine sparseWf_cons_iff.mpr ⟨?_, hne, ih hrest⟩
        intro d hd
        rcases mem_sparseSet hd with rfl | hd
        · simp only
          omega
        · exact hlt d hd

/-- Reading the key just written. -/
theorem sparseGet_set_same [DecidableEq α] {m : List (Nat × α)} (h : SparseWf dflt m) (k : Nat) (v : α) :
    sparseGet dflt (sparseSet dflt m k v) k = v := by
  induction m with
  | nil =>
    simp only [sparseSet]
    split <;> simp_all [sparseGet]
  | cons c rest ih =>
    obtain ⟨hlt, hne, hrest⟩ := sparseWf_cons_iff.mp h
    simp only [sparseSet]
    split
    · split <;> simp_all [sparseGet]
    · split
      · subst k
        split
        · rw [sparseGet_of_lt hlt]
          exact Eq.symm ‹_›
        · simp [sparseGet]
      · simp only [sparseGet]
        rw [if_neg ‹_›, if_neg ‹_›]
        exact ih hrest

/-- Reading any other key. -/
theorem sparseGet_set_other [DecidableEq α] {m : List (Nat × α)} (h : SparseWf dflt m) {k j : Nat} (v : α) (hne : j ≠ k) :
    sparseGet dflt (sparseSet dflt m k v) j = sparseGet dflt m j := by
  induction m with
  | nil =>
    simp only [sparseSet]
    split <;> simp_all [sparseGet]
  | cons c rest ih =>
    obtain ⟨hlt, hd, hrest⟩ := sparseWf_cons_iff.mp h
    simp only [sparseSet]
    split
    · split
      · rfl
      · simp only [sparseGet]
        split
        · rw [if_pos (by omega)]
        · simp
    · split
      · subst k
        split
        · simp only [sparseGet]
          split
          · exact sparseGet_of_lt (fun d hd => lt_trans ‹_› (hlt d hd))
          · simp
        · simp [sparseGet, hne]
      · simp only [sparseGet]
        rw [ih hrest]

end Sparse

/-! ### Addresses -/

theorem a16_lt (v : Int) : a16 v < 65536 := by
  unfold a16
  omega

/-- Address `0x10000 + a` is cell a (R51). -/
theorem a16_add_65536 (v : Int) : a16 (65536 + v) = a16 v := by
  unfold a16
  omega

theorem a16_eq_iff (u v : Int) : a16 u = a16 v ↔ u % 65536 = v % 65536 := by
  unfold a16
  omega

/-- Cells closer than 65,536 to each other are different. -/
theorem a16_add_ne {addr : Int} {i j : Nat} (hij : i ≠ j) (hi : i < 65536) (hj : j < 65536) :
    a16 (addr + i) ≠ a16 (addr + j) := by
  unfold a16
  omega

/-! ### Memory -/

theorem Memory.wf_nil : Memory.wf [] := ⟨sparseWf_nil, by simp⟩

theorem Memory.writeByte_wf {m : Memory} (h : m.wf) (addr v : Int) : (m.writeByte addr v).wf := by
  refine ⟨sparseSet_wf h.1 _ _, fun c hc => ?_⟩
  rcases mem_sparseSet hc with rfl | hc
  · exact a16_lt addr
  · exact h.2 c hc

theorem Memory.write_wf {m : Memory} (h : m.wf) (addr : Int) (n : Nat) (v : Int) : (m.write addr n v).wf := by
  induction n generalizing v with
  | zero => exact h
  | succ n ih => exact Memory.writeByte_wf (ih _) _ _

theorem Memory.writeBytes_wf {m : Memory} (h : m.wf) (addr : Int) (vs : List Byte) : (m.writeBytes addr vs).wf := by
  induction vs generalizing m addr with
  | nil => exact h
  | cons v vs ih => exact ih (Memory.writeByte_wf h _ _) _

theorem Memory.readByte_writeByte_same {m : Memory} (h : m.wf) {a b : Int} (v : Int) (hab : a16 b = a16 a) :
    (m.writeByte a v).readByte b = lo8 v := by
  unfold Memory.readByte Memory.writeByte
  rw [hab]
  exact sparseGet_set_same h.1 _ _

theorem Memory.readByte_writeByte_other {m : Memory} (h : m.wf) {a b : Int} (v : Int) (hab : a16 b ≠ a16 a) :
    (m.writeByte a v).readByte b = m.readByte b :=
  sparseGet_set_other h.1 _ hab

/-- A write of n bytes leaves every other cell alone. -/
theorem Memory.readByte_write_outside {m : Memory} (h : m.wf) {addr b : Int} (n : Nat) (v : Int)
    (hb : ∀ k : Nat, k < n → a16 b ≠ a16 (addr + k)) : (m.write addr n v).readByte b = m.readByte b := by
  induction n generalizing v with
  | zero => rfl
  | succ n ih =>
    rw [Memory.write, Memory.readByte_writeByte_other (Memory.write_wf h _ _ _) _ (hb n (by omega))]
    exact ih _ (fun k hk => hb k (by omega))

/-- A read of n bytes is a number of n bytes. -/
theorem Memory.read_lt (m : Memory) (addr : Int) (n : Nat) : m.read addr n < 256 ^ n := by
  induction n with
  | zero => simp [Memory.read]
  | succ n ih =>
    have hb := (m.readByte (addr + n)).isLt
    simp only [Memory.read, pow_succ]
    omega

/-- A read depends on its cells only. -/
theorem Memory.read_congr {m m' : Memory} {addr : Int} (n : Nat)
    (h : ∀ k : Nat, k < n → m.readByte (addr + k) = m'.readByte (addr + k)) : m.read addr n = m'.read addr n := by
  induction n with
  | zero => rfl
  | succ n ih => simp [Memory.read, ih (fun k hk => h k (by omega)), h n (by omega)]

theorem lo8_toNat (v : Int) : ((lo8 v).toNat : Int) = v % 256 := by
  unfold lo8
  rw [BitVec.toNat_ofInt]
  omega

/-- Reading back a field just written gives the value modulo 256^n (R54, R55). -/
theorem Memory.read_write {m : Memory} (h : m.wf) (addr : Int) (n : Nat) (hn : n ≤ 65536) (v : Int) :
    (((m.write addr n v).read addr n : Nat) : Int) = v % 256 ^ n := by
  induction n generalizing v with
  | zero => simp [Memory.read]
  | succ n ih =>
    have hw := Memory.write_wf h addr n (v / 256)
    simp only [Memory.read, Memory.write]
    rw [Memory.readByte_writeByte_same hw _ rfl]
    rw [Memory.read_congr (m' := m.write addr n (v / 256)) n (fun k hk =>
      Memory.readByte_writeByte_other hw _ (a16_add_ne (by omega) (by omega) (by omega)))]
    have hi := ih (by omega) (v / 256)
    have hl := lo8_toNat v
    push_cast
    rw [hi, hl, pow_succ]
    have hpos : (0 : Int) < 256 ^ n := by positivity
    have h1 := Int.emod_add_mul_ediv v (256 ^ n * 256)
    have h2 := Int.emod_add_mul_ediv (v / 256) (256 ^ n)
    have h3 := Int.emod_add_mul_ediv v 256
    have h4 : v / (256 ^ n * 256) = v / 256 / 256 ^ n := by
      rw [mul_comm, Int.ediv_ediv_of_nonneg (by norm_num)]
    rw [h4] at h1
    linear_combination 256 * h2 + h3 - h1

theorem State.readWord_toNat (s : State) (addr : Int) : (s.readWord addr).toNat = s.mem.read addr 3 := by
  have h := Memory.read_lt s.mem addr 3
  simp only [State.readWord, BitVec.toNat_ofNat]
  omega

theorem State.readByte_writeByte_same {s : State} (h : s.mem.wf) (a v : Int) : (s.writeByte a v).readByte a = lo8 v :=
  Memory.readByte_writeByte_same h v rfl

theorem State.readByte_writeByte_other {s : State} (h : s.mem.wf) {a b : Int} (v : Int) (hab : a16 b ≠ a16 a) :
    (s.writeByte a v).readByte b = s.readByte b :=
  Memory.readByte_writeByte_other h v hab

end Sys2Proof.Machine
end

