-- ==== Sys2Proof/Laws/Ops.lean ====
section
/-! SUPPORT. One lemma per shared operation that says what it can do, and every instruction as `finish` of its handler, which
whole-machine proofs cite instead of unfolding the meanings. -/

namespace Sys2Proof

theorem Field.len_le (f : Field) : f.len ≤ 4 := by
  cases f <;> simp [Field.len]

theorem Field.len_ge (f : Field) : 3 ≤ f.len := by
  cases f <;> simp [Field.len]

end Sys2Proof

namespace Sys2Proof.Machine

/-! ### Register writes -/

theorem isBelow_iff (bound : Nat) (v : Int) : isBelow bound v = true ↔ 0 ≤ v ∧ v < bound := by
  cases v with
  | ofNat n =>
    simp only [isBelow, decide_eq_true_eq, Int.ofNat_eq_natCast]
    omega
  | negSucc n =>
    simp only [isBelow, Bool.false_eq_true, false_iff]
    omega

theorem trunc24_toNat {v : Int} (h0 : 0 ≤ v) (h1 : v < 16777216) : ((trunc24 v).toNat : Int) = v := by
  unfold trunc24
  rw [BitVec.toNat_ofInt]
  omega

theorem trunc24_natCast (n : Nat) : trunc24 (n : Int) = BitVec.ofNat 24 n := by
  unfold trunc24
  apply BitVec.eq_of_toNat_eq
  rw [BitVec.toNat_ofInt, BitVec.toNat_ofNat]
  omega

theorem regFit_inRange {v : Int} (h0 : 0 ≤ v) (h1 : v < 16777216) : regFit v = some (trunc24 v) := by
  rw [regFit, if_pos ((isBelow_iff _ _).mpr ⟨h0, h1⟩)]

/-- Outside 24 bits `REG_OVERFLOW` decides (R22). -/
theorem regFit_outside {v : Int} (h : ¬(0 ≤ v ∧ v < 16777216)) :
    regFit v = match Config.regOverflow with
      | .wrap => some (trunc24 v)
      | .fault => none := by
  have hb : ¬isBelow 16777216 v = true := fun hb => h ((isBelow_iff _ _).mp hb)
  unfold regFit
  cases Config.regOverflow <;> simp [hb]

/-- Everything a register write can do (R22). -/
theorem writeReg_cases (s : State) (p : Word) (r : Reg) (v : Int) :
    s.writeReg p r v = .ok (s.setReg r (trunc24 v)) ∨
      (s.writeReg p r v = .error (.registerOverflow p r v) ∧ ¬(0 ≤ v ∧ v < 16777216) ∧
        Config.regOverflow = .fault) := by
  unfold State.writeReg
  by_cases hv : 0 ≤ v ∧ v < 16777216
  · simp [regFit_inRange hv.1 hv.2]
  · cases hc : Config.regOverflow <;> simp [regFit_outside hv, hc, hv]

theorem writeReg_inRange (s : State) (p : Word) (r : Reg) {v : Int} (h0 : 0 ≤ v) (h1 : v < 16777216) :
    s.writeReg p r v = .ok (s.setReg r (trunc24 v)) := by
  simp [State.writeReg, regFit_inRange h0 h1]

/-- From an address inside the memory P + len always fits (R22). -/
theorem fallThrough_ok (s : State) {p : Word} {len : Nat} (hp : p.toNat < 65536) (hl : len ≤ 4) :
    s.fallThrough p len = .ok (s.setReg .PC (BitVec.ofNat 24 (p.toNat + len))) := by
  unfold State.fallThrough
  rw [writeReg_inRange s p .PC (by omega) (by omega)]
  rw [← trunc24_natCast]
  push_cast
  rfl

theorem ofNat_toNat_small {n : Nat} (h : n < 16777216) : (BitVec.ofNat 24 n).toNat = n := by
  rw [BitVec.toNat_ofNat]
  omega

/-! ### Register indexes -/

theorem regAt_of_some {p : Word} {k : BitVec 4} {r : Reg} (h : regOfIndex k = some r) : regAt p k = .ok r := by
  simp [regAt, h]

theorem regAt_of_none {p : Word} {k : BitVec 4} (h : regOfIndex k = none) :
    regAt p k = .error (.unknownRegister p k) := by
  simp [regAt, h]

/-- The check of WellFormed is the check of the handlers (R24, R92). -/
theorem namesRegister_iff (k : BitVec 4) : namesRegister k = (regOfIndex k).isSome := by
  revert k
  decide

/-! ### The resolver -/

@[simp] theorem resolve_len (o : Operand) (s : State) : (resolve o s).len = o.field.len := by
  unfold resolve
  split
  · rfl
  · split
    · rfl
    · split <;> rfl

theorem fieldRaw_bounds (f : Field) : 0 ≤ fieldRaw f ∧ fieldRaw f < 1048576 := by
  cases f with
  | disp d =>
    have := d.isLt
    simp only [fieldRaw]
    omega
  | addr a =>
    have := a.isLt
    simp only [fieldRaw]
    omega

/-- An immediate is the raw field, and only an immediate is reported as one (R116). -/
theorem resolve_imm (o : Operand) (s : State) :
    (resolve o s).imm = isImmediate o ∧ (isImmediate o = true → (resolve o s).ea = fieldRaw o.field) := by
  unfold resolve
  cases hi : isImmediate o
  · by_cases h2 : isIndirect o = true
    · simp [h2]
    · by_cases h3 : o.x = true <;> simp [h2, h3]
  · simp

theorem wordOperand_toNat (o : Operand) (s : State) :
    ((wordOperand (resolve o s) s).toNat : Int) =
      if (resolve o s).imm then (resolve o s).ea else (s.mem.read (resolve o s).ea 3 : Int) := by
  unfold wordOperand
  split
  · have h := resolve_imm o s
    have hb := fieldRaw_bounds o.field
    have he := h.2 (by rw [← h.1]; assumption)
    rw [trunc24_toNat (by omega) (by omega)]
  · rw [State.readWord_toNat]

/-! ### Closing an instruction -/

theorem finish_ok {s t : State} {m : Mnemonic} {len : Nat} {ea : Int} {dev : Option Byte} {body : Except Fault State}
    (h : body = .ok t) : finish s m len ea dev body = .next (t.retire m s.pc len ea dev) := by
  subst h
  rfl

theorem finish_error {s : State} {m : Mnemonic} {len : Nat} {ea : Int} {dev : Option Byte} {body : Except Fault State}
    {k : Fault} (h : body = .error k) : finish s m len ea dev body = .next (s.raise k) := by
  subst h
  rfl

/-- Everything `finish` can do. -/
theorem finish_cases {s t : State} {m : Mnemonic} {len : Nat} {ea : Int} {dev : Option Byte}
    {body : Except Fault State} (h : finish s m len ea dev body = .next t) :
    (∃ u, body = .ok u ∧ t = u.retire m s.pc len ea dev) ∨ (∃ k, body = .error k ∧ t = s.raise k) := by
  unfold finish at h
  cases body with
  | ok u => exact .inl ⟨u, rfl, by simpa using h.symm⟩
  | error k => exact .inr ⟨k, rfl, by simpa using h.symm⟩

/-- The retired state runs on exactly when it ran and the new PC is inside the memory and not 0 (R127). -/
theorem retire_executed (s u : State) (m : Mnemonic) (p : Word) (len : Nat) (ea : Int) (dev : Option Byte)
    (ht : u.trace = s.trace) (hr : u.runnable = s.runnable) : Executed m s (u.retire m p len ea dev) := by
  refine ⟨by simp [ht], ?_⟩
  simp only [State.retire_runnable, State.retire_pc, haltsAt, hr]
  cases s.runnable <;> cases (u.pc.toNat == 0) <;> by_cases h : 65536 ≤ u.pc.toNat <;> simp [h]

/-! ### Every instruction as `finish` of its handler -/

/-- What an instruction does before it is closed. -/
def handler : Instr → State → Except Fault State
  | .lda o, s => (s.setReg .A (wordOperand (resolve o s) s)).fallThrough s.pc o.field.len
  | .ldb o, s => (s.setReg .B (wordOperand (resolve o s) s)).fallThrough s.pc o.field.len
  | .ldt o, s => (s.setReg .T (wordOperand (resolve o s) s)).fallThrough s.pc o.field.len
  | .ldch o, s => (s.setReg .A (charOperand (resolve o s) s)).fallThrough s.pc o.field.len
  | .sta o, s => (s.writeWord (resolve o s).ea (s.reg .A)).fallThrough s.pc o.field.len
  | .stl o, s => (s.writeWord (resolve o s).ea (s.reg .L)).fallThrough s.pc o.field.len
  | .stx o, s => (s.writeWord (resolve o s).ea (s.reg .X)).fallThrough s.pc o.field.len
  | .stch o, s => (s.writeByte (resolve o s).ea (s.reg .A).toNat).fallThrough s.pc o.field.len
  | .comp o, s => (s.setReg .SW (cmpWords (s.reg .A) (wordOperand (resolve o s) s))).fallThrough s.pc o.field.len
  | .compr _ r1 r2, s => do
    let ra ← regAt s.pc r1
    let rb ← regAt s.pc r2
    (s.setReg .SW (cmpWords (s.reg ra) (s.reg rb))).fallThrough s.pc 2
  | .clear _ r1 _, s => do
    let r ← regAt s.pc r1
    (s.setReg r 0#24).fallThrough s.pc 2
  | .tixr _ r1 _, s => do
    let r ← regAt s.pc r1
    let t ← s.writeReg s.pc .X ((s.reg .X).toNat + 1)
    (t.setReg .SW (cmpWords (t.reg .X) (t.reg r))).fallThrough s.pc 2
  | .j o, s => s.writeReg s.pc .PC (resolve o s).ea
  | .jeq o, s =>
    if s.reg .SW == swEqual then s.writeReg s.pc .PC (resolve o s).ea else s.fallThrough s.pc o.field.len
  | .jlt o, s =>
    if s.reg .SW == swLess then s.writeReg s.pc .PC (resolve o s).ea else s.fallThrough s.pc o.field.len
  | .jsub o, s => do
    let t ← s.writeReg s.pc .L (s.pc.toNat + o.field.len)
    t.writeReg s.pc .PC (resolve o s).ea
  | .rsub _, s => .ok ({ s with draws := s.draws + 1 }.setReg .PC (s.reg .L))
  | .td o, s =>
    let r := s.devTest (deviceNumber (resolve o s) s)
    (r.2.setReg .SW (if r.1 then swGreater else swEqual)).fallThrough s.pc o.field.len
  | .rd o, s =>
    let id := deviceNumber (resolve o s) s
    if s.isOpen id then
      let r := s.devRead id
      (r.2.setReg .A (inputWord r.1)).fallThrough s.pc o.field.len
    else .error (.deviceNotOpen s.pc id)
  | .wd o, s =>
    let id := deviceNumber (resolve o s) s
    if s.isOpen id then (s.devWrite id (lo8 (s.reg .A).toNat)).fallThrough s.pc o.field.len
    else .error (.deviceNotOpen s.pc id)

/-- The effective address an instruction reports (R130). -/
def reportedBy : Instr → State → Int
  | .rsub _, s => Config.rsubReportedEa s.draws
  | i, s =>
    match i.operand? with
    | some o => reportedEa (resolve o s).ea
    | none => 0

/-- The device an instruction touches (R130, R182). -/
def touchedBy (i : Instr) (s : State) : Option Byte :=
  if usesDevice i then i.operand?.map (fun o => deviceNumber (resolve o s) s) else none

theorem exec_eq_finish (i : Instr) (s : State) :
    exec i s = finish s i.mnemonic i.length (reportedBy i s) (touchedBy i s) (handler i s) := by
  cases i <;>
    simp only [exec, execLda, execLdb, execLdt, execLdch, execSta, execStl, execStx, execStch, execComp, execCompr,
      execClear, execTixr, execJ, execJeq, execJlt, execJsub, execRsub, execTd, execRd, execWd, loadInto, storeWord,
      jumpIf, resolve_len, if_true] <;> rfl

/-- Everything a word store does to memory (R55, R56): its three cells hold the word, big-endian, and every other cell is
as before. -/
theorem State.writeWord_bytes {s : State} (hm : s.mem.wf) (a : Int) (v : Word) :
    (s.writeWord a v).readByte a = v.extractLsb' 16 8 ∧
    (s.writeWord a v).readByte (a + 1) = v.extractLsb' 8 8 ∧
    (s.writeWord a v).readByte (a + 2) = v.extractLsb' 0 8 ∧
    KeepsMemoryOutside a 3 s (s.writeWord a v) := by
  have w1 := Memory.write_wf hm a 1 ((v.toNat : Int) / 256 / 256)
  have w2 := Memory.write_wf hm a 2 ((v.toNat : Int) / 256)
  have hb : ∀ (x : Int) (k : Nat), x % 256 = (v.toNat / 2 ^ k : Nat) % 256 → lo8 x = v.extractLsb' k 8 := by
    intro x k hx
    apply BitVec.eq_of_toNat_eq
    have := lo8_toNat x
    rw [BitVec.extractLsb'_toNat, Nat.shiftRight_eq_div_pow]
    omega
  have e0 : a16 a = a16 (a + (0 : Nat)) := by simp
  refine ⟨?_, ?_, ?_, fun b h => Memory.readByte_write_outside hm 3 _ h⟩
  · show ((Memory.write s.mem a 3 v.toNat).readByte a) = _
    rw [Memory.write, Memory.readByte_writeByte_other w2 _ (by rw [e0]; exact a16_add_ne (by omega) (by omega) (by omega)),
      Memory.write, Memory.readByte_writeByte_other w1 _ (by rw [e0]; exact a16_add_ne (by omega) (by omega) (by omega)),
      Memory.write, Memory.readByte_writeByte_same (by exact hm) _ (by simp)]
    exact hb _ _ (by norm_num; omega)
  · show ((Memory.write s.mem a 3 v.toNat).readByte (a + (1 : Nat))) = _
    rw [Memory.write, Memory.readByte_writeByte_other w2 _ (a16_add_ne (by omega) (by omega) (by omega)),
      Memory.write, Memory.readByte_writeByte_same w1 _ rfl]
    exact hb _ _ (by norm_num)
  · show ((Memory.write s.mem a 3 v.toNat).readByte (a + (2 : Nat))) = _
    rw [Memory.write, Memory.readByte_writeByte_same w2 _ rfl]
    exact hb _ _ (by norm_num)

end Sys2Proof.Machine
end

