-- ==== Sys2Proof/Laws/Device.lean ====
section
/-! SUPPORT. The device table: read after write, what each request can do, and closing every device. -/

namespace Sys2Proof.Machine

theorem device_setDevice_same {s : State} (h : devicesWf s.devices) (id : Byte) (x : Handle) :
    (s.setDevice id x).device id = x :=
  sparseGet_set_same h.1 _ _

theorem device_setDevice_other {s : State} (h : devicesWf s.devices) {id j : Byte} (hj : j ≠ id) (x : Handle) :
    (s.setDevice id x).device j = s.device j :=
  sparseGet_set_other h.1 _ (fun hh => hj (BitVec.eq_of_toNat_eq hh))

theorem setDevice_wf {s : State} (h : devicesWf s.devices) (id : Byte) (x : Handle) :
    devicesWf (s.setDevice id x).devices := by
  refine ⟨sparseSet_wf h.1 _ _, fun d hd => ?_⟩
  rcases mem_sparseSet hd with rfl | hd
  · exact id.isLt
  · exact h.2 d hd

/-- A verdict is drawn from the environment: the first ready one is used up, or, with none ready, the draw counter
advances; nothing else changes. -/
theorem drawVerdict_frame (s : State) :
    ∃ n, (s.drawVerdict).2 = { s with verdicts := s.verdicts.tail, draws := n } ∧ s.draws ≤ n ∧
      (s.verdicts = [] → s.draws < n) := by
  unfold State.drawVerdict
  split
  · exact ⟨s.draws, by simp [*], le_refl _, by simp [*]⟩
  · exact ⟨s.draws + 1, by simp [*], by omega, fun _ => by omega⟩

/-- An input answer is drawn from the environment: the first ready one is used up, or, with none ready, the draw counter
advances; nothing else changes. -/
theorem drawInput_frame (s : State) :
    ∃ n, (s.drawInput).2 = { s with inputs := s.inputs.tail, draws := n } ∧ s.draws ≤ n ∧
      (s.inputs = [] → s.draws < n) := by
  unfold State.drawInput
  split
  · exact ⟨s.draws, by simp [*], le_refl _, by simp [*]⟩
  · exact ⟨s.draws + 1, by simp [*], by omega, fun _ => by omega⟩

/-- DevTest of a device that is open: ok, and nothing changes. -/
theorem devTest_open {s : State} {id : Byte} (h : s.isOpen id = true) : s.devTest id = (true, s) := by
  simp [State.devTest, h]

/-- DevTest of a device that is not open: the verdict decides, and opens the device when it is ok. -/
theorem devTest_closed {s : State} {id : Byte} (h : s.isOpen id = false) :
    s.devTest id =
      ((s.drawVerdict).1, if (s.drawVerdict).1 then (s.drawVerdict).2.openDevice id else (s.drawVerdict).2) := by
  simp only [State.devTest, h]
  rcases s.drawVerdict with ⟨b, t⟩
  cases b <;> rfl

/-- Everything DevTest can change: the handle of its device, which only opens, and the environment's answers. -/
theorem devTest_frame (s : State) (id : Byte) :
    ∃ ds vs n, (s.devTest id).2 = { s with devices := ds, verdicts := vs, draws := n } ∧
      (ds = s.devices ∨
        ∃ c, s.isOpen id = false ∧
          ds = sparseSet Handle.untouched s.devices id.toNat { s.device id with isOpen := true, cursor := c }) := by
  cases h : s.isOpen id
  · obtain ⟨n, hf, -⟩ := drawVerdict_frame s
    rw [devTest_closed h, hf]
    split
    · exact ⟨_, _, _, rfl, .inr ⟨_, rfl, rfl⟩⟩
    · exact ⟨_, _, _, rfl, .inl rfl⟩
  · rw [devTest_open h]
    exact ⟨_, _, _, rfl, .inl rfl⟩

theorem devRead_eq (s : State) (id : Byte) :
    s.devRead id = ((s.drawInput).1,
      (s.drawInput).2.setDevice id
        { (s.drawInput).2.device id with cursor := ((s.drawInput).2.device id).cursor + 1 }) := by
  unfold State.devRead
  rcases s.drawInput with ⟨a, b⟩
  rfl

/-- Everything DevRead can change: the cursor of its device, and the environment's answer, which is used up. -/
theorem devRead_frame (s : State) (id : Byte) :
    ∃ n, (s.devRead id).2 =
      { s with
        devices := sparseSet Handle.untouched s.devices id.toNat
          { s.device id with cursor := (s.device id).cursor + 1 }
        inputs := s.inputs.tail
        draws := n } ∧ s.draws ≤ n ∧ (s.inputs = [] → s.draws < n) := by
  obtain ⟨n, hf, hn⟩ := drawInput_frame s
  rw [devRead_eq, hf]
  exact ⟨n, rfl, hn⟩

/-- DevClose closes every handle. -/
theorem sparseGet_closeAll {ds : List (Nat × Handle)} (h : SparseWf Handle.untouched ds) (k : Nat) :
    sparseGet Handle.untouched (closeAll ds) k = (sparseGet Handle.untouched ds k).closed := by
  induction ds with
  | nil => rfl
  | cons d rest ih =>
    obtain ⟨hlt, hne, hr⟩ := sparseWf_cons_iff.mp h
    have hmem : ∀ e ∈ closeAll rest, d.1 < e.1 := by
      intro e he
      simp only [closeAll, List.mem_filter, List.mem_map] at he
      obtain ⟨⟨x, hx, rfl⟩, _⟩ := he
      exact hlt x hx
    have hc : closeAll (d :: rest) =
        if d.2.closed ≠ Handle.untouched then (d.1, d.2.closed) :: closeAll rest else closeAll rest := by
      unfold closeAll
      rw [List.map_cons, List.filter_cons]
      simp only [decide_not, Bool.not_eq_true', decide_eq_false_iff_not]
    rw [hc]
    by_cases hu : d.2.closed = Handle.untouched
    · simp only [hu, ne_eq, not_true_eq_false, if_false, sparseGet]
      split
      · rw [sparseGet_of_lt (fun e he => lt_trans ‹_› (hmem e he))]
        rfl
      · split
        · subst k
          rw [sparseGet_of_lt hmem, hu]
        · exact ih hr
    · simp only [hu, ne_eq, not_false_eq_true, if_true, sparseGet]
      split
      · rfl
      · split
        · rfl
        · exact ih hr

theorem devClose_device {s : State} (h : devicesWf s.devices) (id : Byte) :
    s.devClose.device id = (s.device id).closed :=
  sparseGet_closeAll h.1 _

/-- DevClose keeps the canonical form. -/
theorem closeAll_wf {ds : List (Nat × Handle)} (h : devicesWf ds) : devicesWf (closeAll ds) := by
  refine ⟨⟨?_, ?_⟩, ?_⟩
  · refine List.Pairwise.filter _ ?_
    rw [List.pairwise_map]
    exact h.1.1
  · intro c hc
    simpa using (List.mem_filter.mp hc).2
  · intro c hc
    obtain ⟨d, hd, rfl⟩ := List.mem_map.mp (List.mem_filter.mp hc).1
    exact h.2 d hd

/-- The low byte of a register. -/
theorem lo8_word (w : Word) : lo8 w.toNat = w.extractLsb' 0 8 := by
  apply BitVec.eq_of_toNat_eq
  have h := lo8_toNat w.toNat
  simp only [BitVec.extractLsb'_toNat]
  norm_num
  omega

end Sys2Proof.Machine
end

