-- ==== Sys2Proof/Laws/Exec.lean ====
section
/-! SUPPORT. What an instruction can do, said once: its two outcomes, and the fields of State a handler leaves alone. -/

namespace Sys2Proof.Machine

/-- Everything `exec` can do: complete, or take a fatal condition. -/
theorem exec_cases {i : Instr} {s t : State} (h : exec i s = .next t) :
    (∃ u, handler i s = .ok u ∧ t = u.retire i.mnemonic s.pc i.length (reportedBy i s) (touchedBy i s)) ∨
      (∃ k, handler i s = .error k ∧ t = s.raise k) := by
  rw [exec_eq_finish] at h
  exact finish_cases h

theorem exec_of_ok {i : Instr} {s u : State} (h : handler i s = .ok u) :
    exec i s = .next (u.retire i.mnemonic s.pc i.length (reportedBy i s) (touchedBy i s)) := by
  rw [exec_eq_finish, finish_ok h]

theorem exec_of_error {i : Instr} {s : State} {k : Fault} (h : handler i s = .error k) :
    exec i s = .next (s.raise k) := by
  rw [exec_eq_finish, finish_error h]

/-- A register write that went through wrote the value's low 24 bits. -/
theorem writeReg_ok {s t : State} {p : Word} {r : Reg} {v : Int} (h : s.writeReg p r v = .ok t) :
    t = s.setReg r (trunc24 v) := by
  rcases writeReg_cases s p r v with h' | ⟨h', -⟩
  · rw [h'] at h
    exact (Except.ok.inj h).symm
  · rw [h'] at h
    cases h

theorem fallThrough_eq {s t : State} {p : Word} {len : Nat} (h : s.fallThrough p len = .ok t) :
    ∃ w, t = s.setReg .PC w :=
  ⟨_, writeReg_ok h⟩

/-- A bind that went through ran through twice. -/
theorem bind_ok {α β : Type} {x : Except Fault α} {f : α → Except Fault β} {b : β} (h : (x >>= f) = .ok b) :
    ∃ a, x = .ok a ∧ f a = .ok b := by
  cases x with
  | ok a => exact ⟨a, rfl, h⟩
  | error k => cases h

theorem regAt_ok {p : Word} {k : BitVec 4} {r : Reg} (h : regAt p k = .ok r) : regOfIndex k = some r := by
  unfold regAt at h
  split at h
  · rw [← Except.ok.inj h]
    assumption
  · cases h

/-- What a handler that ran through did, instruction by instruction. PC holds some word `w` at the end. -/
def Effect : Instr → State → State → Prop
  | .lda o, s, u => ∃ w, u = (s.setReg .A (wordOperand (resolve o s) s)).setReg .PC w
  | .ldb o, s, u => ∃ w, u = (s.setReg .B (wordOperand (resolve o s) s)).setReg .PC w
  | .ldt o, s, u => ∃ w, u = (s.setReg .T (wordOperand (resolve o s) s)).setReg .PC w
  | .ldch o, s, u => ∃ w, u = (s.setReg .A (charOperand (resolve o s) s)).setReg .PC w
  | .sta o, s, u => ∃ w, u = (s.writeWord (resolve o s).ea (s.reg .A)).setReg .PC w
  | .stl o, s, u => ∃ w, u = (s.writeWord (resolve o s).ea (s.reg .L)).setReg .PC w
  | .stx o, s, u => ∃ w, u = (s.writeWord (resolve o s).ea (s.reg .X)).setReg .PC w
  | .stch o, s, u => ∃ w, u = (s.writeByte (resolve o s).ea (s.reg .A).toNat).setReg .PC w
  | .comp o, s, u => ∃ w, u = (s.setReg .SW (cmpWords (s.reg .A) (wordOperand (resolve o s) s))).setReg .PC w
  | .compr _ _ _, s, u => ∃ a b w, u = (s.setReg .SW (cmpWords a b)).setReg .PC w
  | .clear _ r1 _, s, u => ∃ r w, regOfIndex r1 = some r ∧ u = (s.setReg r 0#24).setReg .PC w
  | .tixr _ _ _, s, u => ∃ x a b w, u = ((s.setReg .X x).setReg .SW (cmpWords a b)).setReg .PC w
  | .j _, s, u => ∃ w, u = s.setReg .PC w
  | .jeq _, s, u => ∃ w, u = s.setReg .PC w
  | .jlt _, s, u => ∃ w, u = s.setReg .PC w
  | .jsub _, s, u => ∃ l w, u = (s.setReg .L l).setReg .PC w
  | .rsub _, s, u => u = { s with draws := s.draws + 1 }.setReg .PC (s.reg .L)
  | .td o, s, u => ∃ v w, (v = swGreater ∨ v = swEqual) ∧
      u = ((s.devTest (s.readByte (resolve o s).ea)).2.setReg .SW v).setReg .PC w
  | .rd o, s, u => ∃ v w, s.isOpen (s.readByte (resolve o s).ea) = true ∧
      u = ((s.devRead (s.readByte (resolve o s).ea)).2.setReg .A v).setReg .PC w
  | .wd o, s, u => ∃ w, s.isOpen (s.readByte (resolve o s).ea) = true ∧
      u = (s.devWrite (s.readByte (resolve o s).ea) (lo8 (s.reg .A).toNat)).setReg .PC w

/-- Inversion of every handler. -/
theorem handler_effect {i : Instr} {s u : State} (h : handler i s = .ok u) : Effect i s u := by
  cases i <;> simp only [handler] at h
  case lda o => exact fallThrough_eq h
  case sta o => exact fallThrough_eq h
  case stx o => exact fallThrough_eq h
  case stl o => exact fallThrough_eq h
  case comp o => exact fallThrough_eq h
  case jeq o =>
    split at h
    · exact ⟨_, writeReg_ok h⟩
    · exact fallThrough_eq h
  case jlt o =>
    split at h
    · exact ⟨_, writeReg_ok h⟩
    · exact fallThrough_eq h
  case j o => exact ⟨_, writeReg_ok h⟩
  case jsub o =>
    obtain ⟨t, h1, h2⟩ := bind_ok h
    rw [writeReg_ok h1] at h2
    exact ⟨_, _, writeReg_ok h2⟩
  case rsub o => exact (Except.ok.inj h).symm
  case ldch o => exact fallThrough_eq h
  case stch o => exact fallThrough_eq h
  case ldb o => exact fallThrough_eq h
  case ldt o => exact fallThrough_eq h
  case compr lo r1 r2 =>
    obtain ⟨ra, -, h⟩ := bind_ok h
    obtain ⟨rb, -, h⟩ := bind_ok h
    obtain ⟨w, hw⟩ := fallThrough_eq h
    exact ⟨_, _, w, hw⟩
  case clear lo r1 r2 =>
    obtain ⟨r, hr, h⟩ := bind_ok h
    obtain ⟨w, hw⟩ := fallThrough_eq h
    exact ⟨r, w, regAt_ok hr, hw⟩
  case tixr lo r1 r2 =>
    obtain ⟨r, -, h⟩ := bind_ok h
    obtain ⟨t, h1, h⟩ := bind_ok h
    obtain ⟨w, hw⟩ := fallThrough_eq h
    rw [writeReg_ok h1] at hw
    exact ⟨_, _, _, w, hw⟩
  case rd o =>
    split at h
    · obtain ⟨w, hw⟩ := fallThrough_eq h
      exact ⟨_, w, ‹_›, hw⟩
    · cases h
  case wd o =>
    split at h
    · obtain ⟨w, hw⟩ := fallThrough_eq h
      exact ⟨w, ‹_›, hw⟩
    · cases h
  case td o =>
    obtain ⟨w, hw⟩ := fallThrough_eq h
    refine ⟨_, w, ?_, hw⟩
    split
    · exact .inl rfl
    · exact .inr rfl

/-- No handler touches F, the section map, the load base, the entry point, the runnable flag, the latches, the trace or
the report. -/
theorem handler_frame {i : Instr} {s u : State} (h : handler i s = .ok u) :
    ∃ g m ds vs ins n,
      u = { s with regs := g, mem := m, devices := ds, verdicts := vs, inputs := ins, draws := n } := by
  have he := handler_effect h
  cases i <;> simp only [Effect] at he
  case rsub => exact ⟨_, _, _, _, _, _, he⟩
  case td o =>
    obtain ⟨v, w, -, rfl⟩ := he
    obtain ⟨ds, vs, n, hf, -⟩ := devTest_frame s (s.readByte (resolve o s).ea)
    rw [hf]
    exact ⟨_, _, _, _, _, _, rfl⟩
  case rd o =>
    obtain ⟨v, w, -, rfl⟩ := he
    obtain ⟨n, hf, -⟩ := devRead_frame s (s.readByte (resolve o s).ea)
    rw [hf]
    exact ⟨_, _, _, _, _, _, rfl⟩
  case wd => obtain ⟨w, -, rfl⟩ := he; exact ⟨_, _, _, _, _, _, rfl⟩
  case clear => obtain ⟨r, w, -, rfl⟩ := he; exact ⟨_, _, _, _, _, _, rfl⟩
  case tixr => obtain ⟨x, a, b, w, rfl⟩ := he; exact ⟨_, _, _, _, _, _, rfl⟩
  case compr => obtain ⟨a, b, w, rfl⟩ := he; exact ⟨_, _, _, _, _, _, rfl⟩
  case jsub => obtain ⟨l, w, rfl⟩ := he; exact ⟨_, _, _, _, _, _, rfl⟩
  all_goals
    obtain ⟨w, rfl⟩ := he
    exact ⟨_, _, _, _, _, _, rfl⟩

/-- Everything a step can do. -/
theorem step_cases {s t : State} (h : step s = .next t) :
    (s.runnable = false ∧ t = s.idle) ∨
      (s.runnable = true ∧ ∃ i, s.fetchDecode = .ok i ∧ exec i s = .next t) ∨
      (s.runnable = true ∧ ∃ e, s.fetchDecode = .error e ∧ t = s.raiseDecode e) := by
  unfold step at h
  cases hr : s.runnable
  · rw [hr] at h
    exact .inl ⟨rfl, (Host.Outcome.next.inj h).symm⟩
  · rw [hr] at h
    simp only [if_true] at h
    cases hd : s.fetchDecode with
    | ok i =>
      rw [hd] at h
      exact .inr (.inl ⟨rfl, i, rfl, h⟩)
    | error e =>
      rw [hd] at h
      exact .inr (.inr ⟨rfl, e, rfl, (Host.Outcome.next.inj h).symm⟩)

end Sys2Proof.Machine
end

