-- ==== Sys2Proof/Laws/PerInstr.lean ====
section
/-! SUPPORT. One statement made per instruction: the shape of an encoding, its length (R80, R87) and its opcode bits
(R81, R88). -/

namespace Sys2Proof.Laws.EncodeShape

/-- The encoding of an instruction has the instruction's length, and its first byte under the mask 0xFC is the opcode
of the instruction's mnemonic. -/
def Statement (i : Instr) : Prop :=
  (encode i).length = i.length ∧ (encode i).head?.map (fun b => b &&& 0xFC#8) = some (opcodeOf i.mnemonic)

theorem byte1_masked (m : Mnemonic) (lo : BitVec 2) : encodeByte1 m lo &&& 0xFC#8 = opcodeOf m := by
  revert lo
  cases m <;> decide

theorem operand_length (m : Mnemonic) (o : Operand) : (encodeOperand m o).length = o.field.len := by
  unfold encodeOperand
  cases o.field <;> rfl

theorem operand_head (m : Mnemonic) (o : Operand) :
    (encodeOperand m o).head?.map (fun b => b &&& 0xFC#8) = some (opcodeOf m) := by
  unfold encodeOperand
  cases o.field <;> simp [byte1_masked]

theorem registers_head (m : Mnemonic) (lo : BitVec 2) (r1 r2 : BitVec 4) :
    (encodeRegisters m lo r1 r2).head?.map (fun b => b &&& 0xFC#8) = some (opcodeOf m) := by
  simp [encodeRegisters, byte1_masked]

theorem lda (o : Operand) : Statement (.lda o) := ⟨operand_length _ o, operand_head _ o⟩

theorem sta (o : Operand) : Statement (.sta o) := ⟨operand_length _ o, operand_head _ o⟩

theorem stx (o : Operand) : Statement (.stx o) := ⟨operand_length _ o, operand_head _ o⟩

theorem stl (o : Operand) : Statement (.stl o) := ⟨operand_length _ o, operand_head _ o⟩

theorem comp (o : Operand) : Statement (.comp o) := ⟨operand_length _ o, operand_head _ o⟩

theorem jeq (o : Operand) : Statement (.jeq o) := ⟨operand_length _ o, operand_head _ o⟩

theorem jlt (o : Operand) : Statement (.jlt o) := ⟨operand_length _ o, operand_head _ o⟩

theorem j (o : Operand) : Statement (.j o) := ⟨operand_length _ o, operand_head _ o⟩

theorem jsub (o : Operand) : Statement (.jsub o) := ⟨operand_length _ o, operand_head _ o⟩

theorem rsub (o : Operand) : Statement (.rsub o) := ⟨operand_length _ o, operand_head _ o⟩

theorem ldch (o : Operand) : Statement (.ldch o) := ⟨operand_length _ o, operand_head _ o⟩

theorem stch (o : Operand) : Statement (.stch o) := ⟨operand_length _ o, operand_head _ o⟩

theorem ldb (o : Operand) : Statement (.ldb o) := ⟨operand_length _ o, operand_head _ o⟩

theorem ldt (o : Operand) : Statement (.ldt o) := ⟨operand_length _ o, operand_head _ o⟩

theorem compr (lo : BitVec 2) (r1 r2 : BitVec 4) : Statement (.compr lo r1 r2) := ⟨rfl, registers_head _ lo r1 r2⟩

theorem clear (lo : BitVec 2) (r1 r2 : BitVec 4) : Statement (.clear lo r1 r2) := ⟨rfl, registers_head _ lo r1 r2⟩

theorem tixr (lo : BitVec 2) (r1 r2 : BitVec 4) : Statement (.tixr lo r1 r2) := ⟨rfl, registers_head _ lo r1 r2⟩

theorem rd (o : Operand) : Statement (.rd o) := ⟨operand_length _ o, operand_head _ o⟩

theorem wd (o : Operand) : Statement (.wd o) := ⟨operand_length _ o, operand_head _ o⟩

theorem td (o : Operand) : Statement (.td o) := ⟨operand_length _ o, operand_head _ o⟩

end Sys2Proof.Laws.EncodeShape
end

