-- ==== Sys2Proof/Tests/Slice0.lean ====
section
/-! SUPPORT. Tests. Every expected result is worked out in spec/95 (the vector is named) or by hand from the rule named, never
from the model. Then one witness per obligation with hypotheses. -/

namespace Sys2Proof.Tests
open Sys2Proof.Machine

/-! ### Helpers -/

/-- A runnable machine with PC at `p`, the given other registers, the instruction's bytes at `p`, and data elsewhere. -/
def at' (p : Nat) (bytes : List Byte) (g : Regs := Regs.zero) (data : List (Int × List Byte) := []) : State :=
  { State.reset with
    regs := { g with pc := BitVec.ofNat 24 p }
    mem := (data.foldl (fun m d => Memory.writeBytes m d.1 d.2) ([] : Memory)).writeBytes (p : Int) bytes
    runnable := true }

/-- The state after one step. -/
def next (s : State) : State :=
  match step s with
  | .next t => t
  | .fault _ => s
  | .refused _ => s

/-- Device F1 under address 0x11, open or not. -/
def withF1 (s : State) (isOpen : Bool) : State :=
  { s with
    mem := s.mem.writeByte 0x11 0xF1
    devices := if isOpen then [(0xF1, ⟨true, 0, []⟩)] else [] }

/-! ### Well-formedness: what the check refuses (R92), and what it does not (R91) -/

theorem test_clear_of_F_is_ill_formed : (Instr.clear 0#2 6#4 0#4).wellFormed = false := by decide
theorem test_compr_second_index_is_checked : (Instr.compr 0#2 0#4 7#4).wellFormed = false := by decide
theorem test_compr_first_index_is_checked : (Instr.compr 0#2 10#4 0#4).wellFormed = false := by decide
theorem test_tixr_of_15_is_ill_formed : (Instr.tixr 0#2 15#4 0#4).wellFormed = false := by decide
theorem test_clear_second_index_is_free : (Instr.clear 0#2 0#4 15#4).wellFormed = true := by decide

/-! ### Decoding: words written out from R81 to R86 and R88 (E1 to E9 of 95 section 2.2, and one per constructor) -/

theorem test_decode_lda : decodeBytes [0x03#8, 0x20#8, 0x10#8] =
    .ok (.lda ⟨true, true, false, false, true, .disp 0x010#12⟩) := by decide
theorem test_decode_lda_extended : decodeBytes [0x01#8, 0x11#8, 0x23#8, 0x45#8] =
    .ok (.lda ⟨false, true, false, false, false, .addr 0x12345#20⟩) := by decide
theorem test_decode_sta : decodeBytes [0x0F#8, 0x10#8, 0x20#8, 0x00#8] =
    .ok (.sta ⟨true, true, false, false, false, .addr 0x02000#20⟩) := by decide
theorem test_decode_stx : decodeBytes [0x13#8, 0x10#8, 0x00#8, 0x40#8] =
    .ok (.stx ⟨true, true, false, false, false, .addr 0x00040#20⟩) := by decide
theorem test_decode_stl : decodeBytes [0x17#8, 0x20#8, 0x0B#8] =
    .ok (.stl ⟨true, true, false, false, true, .disp 0x00B#12⟩) := by decide
theorem test_decode_comp : decodeBytes [0x29#8, 0x00#8, 0x05#8] =
    .ok (.comp ⟨false, true, false, false, false, .disp 0x005#12⟩) := by decide
theorem test_decode_jeq : decodeBytes [0x33#8, 0x2F#8, 0xFA#8] =
    .ok (.jeq ⟨true, true, false, false, true, .disp 0xFFA#12⟩) := by decide
theorem test_decode_jlt : decodeBytes [0x3B#8, 0x2F#8, 0xF5#8] =
    .ok (.jlt ⟨true, true, false, false, true, .disp 0xFF5#12⟩) := by decide
theorem test_decode_j : decodeBytes [0x3E#8, 0x20#8, 0x00#8] =
    .ok (.j ⟨true, false, false, false, true, .disp 0x000#12⟩) := by decide
theorem test_decode_jsub : decodeBytes [0x4B#8, 0x10#8, 0x00#8, 0x11#8] =
    .ok (.jsub ⟨true, true, false, false, false, .addr 0x00011#20⟩) := by decide
theorem test_decode_rsub : decodeBytes [0x4F#8, 0x00#8, 0x00#8] =
    .ok (.rsub ⟨true, true, false, false, false, .disp 0x000#12⟩) := by decide
theorem test_decode_ldch : decodeBytes [0x53#8, 0xC0#8, 0x00#8] =
    .ok (.ldch ⟨true, true, true, true, false, .disp 0x000#12⟩) := by decide
theorem test_decode_stch : decodeBytes [0x57#8, 0xA0#8, 0x08#8] =
    .ok (.stch ⟨true, true, true, false, true, .disp 0x008#12⟩) := by decide
theorem test_decode_ldb : decodeBytes [0x69#8, 0x04#8, 0x00#8] =
    .ok (.ldb ⟨false, true, false, false, false, .disp 0x400#12⟩) := by decide
theorem test_decode_ldt : decodeBytes [0x77#8, 0x10#8, 0x10#8, 0x00#8] =
    .ok (.ldt ⟨true, true, false, false, false, .addr 0x01000#20⟩) := by decide
theorem test_decode_compr : decodeBytes [0xA0#8, 0x04#8] = .ok (.compr 0#2 0#4 4#4) := by decide
theorem test_decode_clear : decodeBytes [0xB7#8, 0x30#8] = .ok (.clear 3#2 3#4 0#4) := by decide
theorem test_decode_tixr : decodeBytes [0xB8#8, 0x50#8] = .ok (.tixr 0#2 5#4 0#4) := by decide
theorem test_decode_rd : decodeBytes [0xDB#8, 0x20#8, 0x06#8] =
    .ok (.rd ⟨true, true, false, false, true, .disp 0x006#12⟩) := by decide
theorem test_decode_wd : decodeBytes [0xDF#8, 0x20#8, 0x03#8] =
    .ok (.wd ⟨true, true, false, false, true, .disp 0x003#12⟩) := by decide
theorem test_decode_td : decodeBytes [0xE3#8, 0x20#8, 0x0C#8] =
    .ok (.td ⟨true, true, false, false, true, .disp 0x00C#12⟩) := by decide
theorem test_decode_unassigned : decodeBytes [0x18#8, 0x00#8, 0x00#8] = .error (.unknownOpcode 0x18#8) := by decide
theorem test_encode_jeq : encode (.jeq ⟨true, true, false, false, true, .disp 0xFFA#12⟩) = [0x33#8, 0x2F#8, 0xFA#8] := by
  decide
theorem test_no_two_rows_overlap : optab.Pairwise (fun r q => r.1 ≠ q.1 ∧ r.2 ≠ q.2) := by decide

/-- E3 as a table word: the first byte is the least significant. -/
theorem test_table_word : decodeTableWord 24 0x08A057 =
    some (.stch ⟨true, true, true, false, true, .disp 0x008#12⟩) := by decide
theorem test_table_word_short : decodeTableWord 16 0xFFFF10B4 = some (.clear 0#2 1#4 0#4) := by decide
/-- `LDA #5` placed for the first step after reset. -/
theorem test_fetch_word : (next (State.reset.withFetchWord 24 0x050001)).reg .A = 5#24 := by decide

/-! ### Memory (95 section 2.1) -/

theorem test_M1 : (at' 0x100 [] Regs.zero [(0xFFFF, [0xDE#8, 0xAD#8, 0xBE#8])]).readWord 0xFFFF = 0xDEADBE#24 := by decide
theorem test_M2 : (State.reset.writeWord 0xFFFE 0x123456#24).readByte 0 = 0x56#8 := by decide
theorem test_M3 : (at' 0 [] Regs.zero [(5, [0x7F#8])]).readByte (-65531) = 0x7F#8 := by decide
theorem test_M4 : (State.reset.writeByte (-1) 0x1AB).mem = [(0xFFFF, 0xAB#8)] := by decide

/-! ### The resolver (95 section 2.3): (EA, imm, len) at P = 0x1000 -/

theorem test_A2 : resolve (decodeOperand 0x03#8 0x2F#8 0xFD#8 0#8) (at' 0x1000 []) = ⟨0x1000, false, 3⟩ := by decide
theorem test_A4 : resolve (decodeOperand 0x03#8 0x60#8 0x05#8 0#8) (at' 0x1000 [] { Regs.zero with b := 0x2000#24 }) =
    ⟨0x2005, false, 3⟩ := by decide
theorem test_A7 : resolve (decodeOperand 0x03#8 0x1F#8 0xFF#8 0xFF#8) (at' 0x1000 []) = ⟨0xFFFFF, false, 4⟩ := by decide
theorem test_A9 : resolve (decodeOperand 0x02#8 0xA0#8 0x10#8 0#8) (at' 0x1000 [] { Regs.zero with x := 5#24 }
    [(0x1013, [0x00#8, 0x20#8, 0x00#8])]) = ⟨0x2000, false, 3⟩ := by decide
theorem test_A11 : resolve (decodeOperand 0x01#8 0x2F#8 0xFF#8 0#8) (at' 0x1000 []) = ⟨0xFFF, true, 3⟩ := by decide
theorem test_A12 : resolve (decodeOperand 0x00#8 0x20#8 0x10#8 0#8) (at' 0x1000 []) = ⟨0x1013, false, 3⟩ := by decide
theorem test_A13 : resolve (decodeOperand 0x03#8 0x08#8 0x00#8 0#8) (at' 0x1000 []) = ⟨-2048, false, 3⟩ := by decide
theorem test_A14 : resolve (decodeOperand 0x03#8 0x30#8 0x00#8 0x10#8) (at' 0x1000 []) = ⟨0x1014, false, 4⟩ := by decide
theorem test_A16 : resolve (decodeOperand 0x02#8 0x20#8 0x10#8 0#8) (at' 0x1000 [] Regs.zero
    [(0x1013, [0x01#8, 0x20#8, 0x00#8])]) = ⟨0x12000, false, 3⟩ := by decide
theorem test_A18 : resolve (decodeOperand 0x03#8 0xA0#8 0x10#8 0#8) (at' 0x1000 [] { Regs.zero with x := 0xFFFFFF#24 }) =
    ⟨0x1001012, false, 3⟩ := by decide

/-! ### Loads and stores (95 section 2.4) -/

theorem test_A7_loads : (next (at' 0x1000 [0x03#8, 0x1F#8, 0xFF#8, 0xFF#8] Regs.zero
    [(0xFFFF, [0xDE#8, 0xAD#8, 0xBE#8])])).regs = { Regs.zero with a := 0xDEADBE#24, pc := 0x1004#24 } := by decide
theorem test_L1 : (next (at' 0x1000 [0x69#8, 0x04#8, 0x00#8])).regs =
    { Regs.zero with b := 0x400#24, pc := 0x1003#24 } := by decide
theorem test_L2 : (next (at' 0x100 [0x77#8, 0x10#8, 0x10#8, 0x00#8] Regs.zero
    [(0x1000, [0x00#8, 0x00#8, 0x2A#8])])).regs = { Regs.zero with t := 0x2A#24, pc := 0x104#24 } := by decide
theorem test_L4 : (next (at' 0x1000 [0x53#8, 0x00#8, 0x30#8] { Regs.zero with a := 0xABCDEF#24 }
    [(0x30, [0xF0#8])])).reg .A = 0x0000F0#24 := by decide
theorem test_L5 : (next (at' 0x1000 [0x51#8, 0x01#8, 0x41#8])).reg .A = 0x141#24 := by decide
theorem test_L6 : (next (at' 0x1000 [0x6B#8, 0x40#8, 0x00#8] { Regs.zero with b := 0x2000#24 }
    [(0x2000, [0x00#8, 0x30#8, 0x00#8])])).reg .B = 0x3000#24 := by decide
theorem test_S1 : (next (at' 0x100 [0x0F#8, 0x1F#8, 0xFF#8, 0xFF#8] { Regs.zero with a := 0x123456#24 })).mem =
    [(0, 0x34#8), (1, 0x56#8), (0x100, 0x0F#8), (0x101, 0x1F#8), (0x102, 0xFF#8), (0x103, 0xFF#8), (0xFFFF, 0x12#8)] := by
  decide
theorem test_S2 : (next (at' 8 [0x57#8, 0xA0#8, 0x08#8] { Regs.zero with a := 0x41#24, x := 2#24 })).mem =
    [(8, 0x57#8), (9, 0xA0#8), (10, 0x08#8), (0x15, 0x41#8)] := by decide
theorem test_S3 : (next (at' 0x1000 [0x0D#8, 0x01#8, 0x00#8] { Regs.zero with a := 0xABCDEF#24 })).readWord 0x100 =
    0xABCDEF#24 := by decide
theorem test_S5 : (next (at' 0x1000 [0x13#8, 0x10#8, 0x00#8, 0x40#8] { Regs.zero with x := 3#24 })).readWord 0x40 =
    3#24 := by decide
theorem test_S6 : (next (at' 0 [0x17#8, 0x20#8, 0x0B#8] { Regs.zero with l := 0x1234#24 })).readWord 0xE =
    0x1234#24 := by decide
theorem test_S8 : (next (at' 0x1000 [0x57#8, 0x00#8, 0x50#8] { Regs.zero with a := 0x123456#24 }
    [(0x50, [0x00#8, 0x77#8])])).readWord 0x50 = 0x567700#24 := by decide

/-! ### Compare and register-only (95 section 2.5): vectors that do not depend on CMP_ORDER -/

theorem test_CM2 : (next (at' 0x1000 [0x2B#8, 0x20#8, 0x00#8] { Regs.zero with a := 3#24 }
    [(0x1003, [0#8, 0#8, 5#8])])).regs = { Regs.zero with a := 3#24, sw := 0xFFFFFF#24, pc := 0x1003#24 } := by decide
theorem test_CM3 : (next (at' 0x1000 [0x2B#8, 0x20#8, 0x00#8] { Regs.zero with a := 7#24 }
    [(0x1003, [0#8, 0#8, 5#8])])).reg .SW = 1#24 := by decide
theorem test_CM12 : (next (at' 0x1000 [0xA0#8, 0x80#8] { Regs.zero with a := 0x1000#24, sw := 1#24 })).reg .SW =
    0#24 := by decide
theorem test_CM13 : next (at' 0x1000 [0xA0#8, 0x06#8] { Regs.zero with a := 1#24, sw := 1#24 }) =
    { at' 0x1000 [0xA0#8, 0x06#8] { Regs.zero with a := 1#24, sw := 1#24 } with
      runnable := false, report := some (.unknownRegister 0x1000#24 6#4) } := by decide
theorem test_RG3 : (next (at' 0x1000 [0xB4#8, 0x80#8])).pc = 0x1002#24 := by decide
theorem test_RG6 : (next (at' 0x1000 [0xB7#8, 0x30#8] { Regs.zero with b := 9#24 })).regs =
    { Regs.zero with pc := 0x1002#24 } := by decide
theorem test_T1 : (next (at' 0x1000 [0xB8#8, 0x50#8] { Regs.zero with t := 3#24 })).regs =
    { Regs.zero with x := 1#24, t := 3#24, sw := 0xFFFFFF#24, pc := 0x1002#24 } := by decide
theorem test_T7 : (next (at' 0x1000 [0xB8#8, 0x90#8] { Regs.zero with sw := 1#24 })).regs =
    { Regs.zero with x := 1#24, sw := 0#24, pc := 0x1002#24 } := by decide

/-! ### Jumps, call, return (95 section 2.6) -/

theorem test_J2 : (next (at' 0xB [0x3E#8, 0x20#8, 0x00#8])).runnable = false := by decide
theorem test_J4 : (next (at' 0x1000 [0x3F#8, 0x1F#8, 0xFF#8, 0xFF#8])).pc = 0x0FFFFF#24 := by decide
theorem test_J6 : (next (at' 5 [0x33#8, 0x2F#8, 0xFA#8])).pc = 2#24 := by decide
theorem test_J8 : (next (at' 5 [0x33#8, 0x2F#8, 0xFA#8] { Regs.zero with sw := 0xFFFFFF#24 })).pc = 8#24 := by decide
theorem test_J9 : (next (at' 0xD [0x3B#8, 0x2F#8, 0xF5#8] { Regs.zero with sw := 0xFFFFFF#24 })).pc = 5#24 := by decide
theorem test_J11 : (next (at' 0xD [0x3B#8, 0x2F#8, 0xF5#8] { Regs.zero with sw := 1#24 })).pc = 0x10#24 := by decide
theorem test_J12 : (next (at' 3 [0x4B#8, 0x10#8, 0x00#8, 0x11#8])).regs =
    { Regs.zero with l := 7#24, pc := 0x11#24 } := by decide
theorem test_J16 : (next (at' 0xFFFE [0x4B#8, 0x10#8, 0x00#8, 0x11#8])).regs =
    { Regs.zero with l := 0x10002#24, pc := 0x11#24 } := by decide
theorem test_J15 : (next (at' 0xFFFD [0x01#8, 0x00#8, 0x07#8])).runnable = false := by decide
theorem test_J13 : (next (at' 0x1000 [0x4F#8, 0x00#8, 0x00#8])).runnable = false := by decide
theorem test_J17 : (next (at' 0x1000 [0x4C#8, 0xFF#8, 0xFF#8] { Regs.zero with l := 0x20#24 })).regs =
    { Regs.zero with l := 0x20#24, pc := 0x20#24 } := by decide
theorem test_E9 : (next (at' 0x1000 [0x18#8])).report = some (.unknownOpcode 0x1000#24 0x18#8) := by decide

/-! ### Devices (95 section 2.7) -/

theorem test_DV1 : (next { withF1 (at' 2 [0xE3#8, 0x20#8, 0x0C#8]) false with verdicts := [true] }).regs =
    { Regs.zero with sw := 1#24, pc := 5#24 } := by decide
theorem test_DV2 : (next { withF1 (at' 2 [0xE3#8, 0x20#8, 0x0C#8] { Regs.zero with sw := 1#24 }) false with
    verdicts := [false] }).regs = { Regs.zero with pc := 5#24 } := by decide
theorem test_DV4 : (next { withF1 (at' 8 [0xDB#8, 0x20#8, 0x06#8] { Regs.zero with a := 0xABCDEF#24 }) true with
    inputs := [none] }).regs = { Regs.zero with pc := 0xB#24 } := by decide
theorem test_DV5 : (next { withF1 (at' 8 [0xDB#8, 0x20#8, 0x06#8]) true with inputs := [some 0xC1#8] }).reg .A =
    0xFFFFC1#24 := by decide
theorem test_DV8 : (next (withF1 (at' 0xB [0xDF#8, 0x20#8, 0x03#8]) false)).report =
    some (.deviceNotOpen 0xB#24 0xF1#8) := by decide
theorem test_DV7 : (next (withF1 (at' 0xB [0xDF#8, 0x20#8, 0x03#8] { Regs.zero with a := 0x123441#24 }) true)).deviceOutput
    0xF1#8 = [0x41#8] := by decide
theorem test_DV11 : (next { withF1 State.reset true with runnable := false }).isOpen 0xF1#8 = false := by decide

/-! ### The loader (95 section 2.8) -/

/-- A text of lines, as an artifact. -/
def artifact (lines : List String) : List Char := (lines.map (fun l => l.toList ++ ['\n'])).flatten

def tiny : State := State.reset.load (artifact ["HTINY  00000000000A", "T0000000A0100050F1020004F0000", "E"])

theorem test_LD1_memory : tiny.mem =
    [(0, 1#8), (2, 5#8), (3, 0x0F#8), (4, 0x10#8), (5, 0x20#8), (7, 0x4F#8)] := by decide
theorem test_LD1_runnable : tiny.runnable = true ∧ tiny.sections = [⟨"TINY".toList, 0, 10⟩] := by decide
/-- Pass 2 of LD3: no table defines NOPE. -/
theorem test_LD3 : (runPass pass2Line 1 (artifactLines (artifact ["HA      000000000003", "M00000006+NOPE", "E"]))
    ⟨State.reset, none, [[]]⟩).2 = some (.unresolvedSymbol "NOPE".toList) := by decide
theorem test_LD6 : (State.reset.load (artifact ["T00000003000010"])).report = some (.recordBeforeHeader 1) := by decide
theorem test_LD7 : (State.reset.load (artifact ["HP      000000000003", "T0000000300ZZ10"])).report =
    some (.malformedRecord 2) := by decide
theorem test_LD10 : (State.reset.load (artifact
    ["HP      000000000004", "T0000000410FFFFFF", "M00000105+Q", "DQ     000002", "E"])).mem =
    [(0, 0x10#8), (3, 1#8)] := by decide

/-- The artifact of R224. -/
def twoSections : List (List Char) := artifactLines (artifact
  ["HMAIN  000000000011", "T0000000E17200B4B1000000F1000003E2000", "M00000405+SUBR", "M00000805+RESULT", "E000000",
   "HSUBS  00000000000F", "DSUBR  000000RESULT00000C", "T0000000C0320062900074F0000000007", "E"])

/-- What pass 1 leaves, and pass 2 over the two symbol values R224 states. -/
def afterPass1 : State := (runPass pass1Line 1 twoSections ⟨State.reset, none, []⟩).1.machine
def afterPass2 : State := (runPass pass2Line 1 twoSections
  ⟨afterPass1, none, [[("SUBR".toList, 0x11), ("RESULT".toList, 0x1D)], []]⟩).1.machine

theorem test_R224_pass1 : afterPass1.entry = 0x11 ∧
    afterPass1.sections = [⟨"MAIN".toList, 0, 0x11⟩, ⟨"SUBS".toList, 0x11, 0xF⟩] := by decide
theorem test_R224_call_word : afterPass2.readWord 4 = 0x100011#24 := by decide
theorem test_R224_store_word : afterPass2.readWord 8 = 0x10001D#24 := by decide
theorem test_R224_value : afterPass2.readWord 0x1A = 7#24 := by decide

/-! ### Witnesses: for each obligation with hypotheses, states and operands that meet them, at the edges of the ranges -/

/-- `J #0`-like operand: immediate zero. -/
def immZero : Operand := ⟨false, true, false, false, false, .disp 0#12⟩

/-- Base-relative operand with displacement 1. -/
def baseOne : Operand := ⟨true, true, false, true, false, .disp 1#12⟩

/-- Absolute operand with displacement -1. -/
def minusOne : Operand := ⟨true, true, false, false, false, .disp 0xFFF#12⟩

/-- A runnable machine whose PC is the last address of memory. -/
def top : State := at' 0xFFFF []

/-- A machine with F1 under address 0x11, and the operand that names it. -/
def f1Open : State := withF1 (at' 0x100 []) true
def f1Shut : State := withF1 (at' 0x100 []) false
def f1 : Operand := ⟨false, true, false, false, false, .disp 0x011#12⟩

theorem witness_EncodeInvertsDecode :
    decode 0xB4#8 0x10#8 0xFF#8 0xFF#8 = .ok (.clear 0#2 1#4 0#4) ∧
      decode 0x4F#8 0x00#8 0x00#8 0xFF#8 = .ok (.rsub ⟨true, true, false, false, false, .disp 0#12⟩) ∧
      decode 0x4C#8 0x10#8 0x00#8 0x00#8 = .ok (.rsub ⟨false, false, false, false, false, .addr 0#20⟩) := by decide

theorem witness_UnassignedOpcodesRejected :
    (0x04#8 &&& 0xFC#8).toNat = 0x04 ∧ (0xFF#8 &&& 0xFC#8).toNat = 0xFC ∧ (0x03#8 &&& 0xFC#8).toNat = 0x00 ∧
      (0xE3#8 &&& 0xFC#8).toNat = 0xE0 := by decide

theorem witness_LengthByOpcodeThenE :
    decode 0xB4#8 0x10#8 0#8 0#8 = .ok (.clear 0#2 1#4 0#4) ∧
      decode 0x01#8 0x0F#8 0xFF#8 0#8 = .ok (.lda ⟨false, true, false, false, false, .disp 0xFFF#12⟩) ∧
      decode 0x01#8 0x1F#8 0xFF#8 0xFF#8 = .ok (.lda ⟨false, true, false, false, false, .addr 0xFFFFF#20⟩) := by decide

theorem witness_PowerOnIsInitialized :
    top.devices = [] ∧ top.verdicts = State.reset.verdicts ∧ top.inputs = State.reset.inputs ∧
      top.draws = State.reset.draws := by decide

theorem witness_InitializeResets :
    top ≠ State.reset ∧ top.devices = State.reset.devices ∧ top.verdicts = State.reset.verdicts ∧
      top.inputs = State.reset.inputs ∧ top.draws = State.reset.draws := by decide

theorem witness_MemoryProperties : f1Open.mem.wf ∧ f1Open.mem ≠ [] := by decide

theorem witness_WordAccessors : f1Open.mem.wf := by decide

theorem witness_MultiByteAccessors :
    Memory.wf [(0xFFFF, 1#8)] ∧ 65536 ≤ 65536 ∧ 65535 < 65536 ∧ 1 ≤ 65536 ∧ 0 < 1 := by decide

theorem witness_RegisterWriteRule :
    ((0 : Int) ≤ 0 ∧ (0 : Int) ≤ 16777215) ∧ ((0 : Int) ≤ 16777215 ∧ (16777215 : Int) ≤ 16777215) ∧
      ¬((0 : Int) ≤ -1 ∧ (-1 : Int) ≤ 16777215) ∧ ¬((0 : Int) ≤ 16777216 ∧ (16777216 : Int) ≤ 16777215) := by omega

theorem witness_RegisterIndexes : (6#4).toNat ∈ [6, 7, 10, 11, 12, 13, 14, 15] ∧
    (15#4).toNat ∈ [6, 7, 10, 11, 12, 13, 14, 15] := by decide

theorem witness_LoadWordResult :
    (Instr.ldt immZero, Reg.T) ∈ [(Instr.lda immZero, Reg.A), (Instr.ldb immZero, Reg.B), (Instr.ldt immZero, Reg.T)] ∧
      top.pc.toNat < 65536 := by decide

theorem witness_LoadCharacterResult : top.pc.toNat < 65536 ∧ State.reset.pc.toNat < 65536 := by decide

theorem witness_StoreWordResult :
    (Instr.stx baseOne, Reg.X) ∈ [(Instr.sta baseOne, Reg.A), (Instr.stl baseOne, Reg.L), (Instr.stx baseOne, Reg.X)] ∧
      f1Open.mem.wf ∧ f1Open.pc.toNat < 65536 := by decide

theorem witness_StoreCharacterResult : f1Open.mem.wf ∧ f1Open.pc.toNat < 65536 := by decide

theorem witness_CompareResult : top.pc.toNat < 65536 := by decide

theorem witness_CompareRegistersResult :
    regOfIndex 0#4 = some .A ∧ regOfIndex 9#4 = some .SW ∧ regOfIndex 8#4 = some .PC ∧ top.pc.toNat < 65536 := by decide

theorem witness_ClearResult : regOfIndex 8#4 = some .PC ∧ regOfIndex 1#4 = some .X ∧ top.pc.toNat < 65536 := by decide

theorem witness_IncrementAndTestResult :
    regOfIndex 1#4 = some .X ∧ regOfIndex 5#4 = some .T ∧ ((at' 0 [] { Regs.zero with x := 0xFFFFFE#24 }).reg .X).toNat <
      16777215 ∧ (at' 0 [] { Regs.zero with x := 0xFFFFFE#24 }).pc.toNat < 65536 := by decide

theorem witness_IncrementAtTheTop :
    regOfIndex 5#4 = some .T ∧ (at' 0 [] { Regs.zero with x := 0xFFFFFF#24 }).reg .X = 0xFFFFFF#24 ∧
      (at' 0 [] { Regs.zero with x := 0xFFFFFF#24 }).pc.toNat < 65536 := by decide

theorem witness_UnknownRegisterRaised :
    regOfIndex 6#4 = none ∧ regOfIndex 15#4 = none ∧ (regOfIndex 9#4).isSome = true := by decide

theorem witness_JumpTaken :
    (0 : Int) ≤ (resolve immZero top).ea ∧ (resolve immZero top).ea < 16777216 ∧ top.reg .SW = 0#24 ∧
      (0 : Int) ≤ (resolve baseOne (at' 0 [] { Regs.zero with b := 0xFFFFFE#24, sw := 0xFFFFFF#24 })).ea ∧
      (resolve baseOne (at' 0 [] { Regs.zero with b := 0xFFFFFE#24, sw := 0xFFFFFF#24 })).ea < 16777216 ∧
      (at' 0 [] { Regs.zero with b := 0xFFFFFE#24, sw := 0xFFFFFF#24 }).reg .SW = 0xFFFFFF#24 := by decide

theorem witness_JumpNotTaken :
    top.reg .SW ≠ 0xFFFFFF#24 ∧ top.pc.toNat < 65536 ∧
      (at' 0xFFFF [] { Regs.zero with sw := 1#24 }).reg .SW ≠ 0#24 := by decide

theorem witness_SubroutineCallResult :
    top.pc.toNat < 65536 ∧ (0 : Int) ≤ (resolve immZero top).ea ∧ (resolve immZero top).ea < 16777216 := by decide

theorem witness_JumpOutsideTwentyFourBits :
    top.pc.toNat < 65536 ∧ ¬((0 : Int) ≤ (resolve minusOne top).ea ∧ (resolve minusOne top).ea < 16777216) ∧
      ¬((0 : Int) ≤ (resolve baseOne (at' 0 [] { Regs.zero with b := 0xFFFFFF#24 })).ea ∧
        (resolve baseOne (at' 0 [] { Regs.zero with b := 0xFFFFFF#24 })).ea < 16777216) := by decide

theorem witness_TestOpenDevice :
    f1Open.pc.toNat < 65536 ∧ f1Open.isOpen (f1Open.readByte (resolve f1 f1Open).ea) = true := by decide

theorem witness_TestClosedDevice :
    f1Shut.pc.toNat < 65536 ∧ devicesWf f1Shut.devices ∧
      f1Shut.isOpen (f1Shut.readByte (resolve f1 f1Shut).ea) = false := by decide

theorem witness_ReadDeviceResult :
    f1Open.pc.toNat < 65536 ∧ devicesWf f1Open.devices ∧
      f1Open.isOpen (f1Open.readByte (resolve f1 f1Open).ea) = true := by decide

theorem witness_WriteDeviceResult :
    f1Open.pc.toNat < 65536 ∧ devicesWf f1Open.devices ∧
      f1Open.isOpen (f1Open.readByte (resolve f1 f1Open).ea) = true := by decide

theorem witness_DeviceNotOpenRaised :
    f1Shut.isOpen (f1Shut.readByte (resolve f1 f1Shut).ea) = false ∧
      Instr.wd f1 ∈ [Instr.rd f1, Instr.wd f1] := by decide

/-- A whole instruction that wraps: its first byte at 0xFFFF, the others at 0 and 1 (vector E12). -/
theorem witness_StepRunsTheDecodedInstruction :
    (at' 0xFFFF [0x03#8, 0x00#8, 0x05#8]).runnable = true ∧
      (at' 0xFFFF [0x03#8, 0x00#8, 0x05#8]).fetchDecode =
        .ok (.lda ⟨true, true, false, false, false, .disp 5#12⟩) := by decide

theorem witness_UnknownOpcodeRaised :
    (at' 0 [0x18#8]).runnable = true ∧
      lookupOpcode ((at' 0 [0x18#8]).readByte (at' 0 [0x18#8]).pc.toNat &&& 0xFC#8) = none := by decide

theorem witness_StoppedStepClosesDevices :
    ({ f1Open with runnable := false } : State).runnable = false ∧
      devicesWf ({ f1Open with runnable := false } : State).devices ∧ f1Open.isOpen 0xF1#8 = true := by decide

theorem witness_StoppedStaysStopped : State.reset.runnable = false := by decide

theorem witness_FailedStepChangesNothing :
    (at' 0 [0x18#8]).runnable = true ∧ step (at' 0 [0x18#8]) = .next (next (at' 0 [0x18#8])) ∧
      (next (at' 0 [0x18#8])).report = some (.unknownOpcode 0#24 0x18#8) :=
  ⟨rfl, rfl, by decide⟩

/-- One step that halts (J @ through a zero word) and one that goes on. -/
theorem witness_HaltAfterInstruction :
    (at' 0xB [0x3E#8, 0x20#8, 0x00#8]).runnable = true ∧
      step (at' 0xB [0x3E#8, 0x20#8, 0x00#8]) = .next (next (at' 0xB [0x3E#8, 0x20#8, 0x00#8])) ∧
      (next (at' 0xB [0x3E#8, 0x20#8, 0x00#8])).report = none ∧ (next (at' 0 [0x01#8, 0x00#8, 0x05#8])).report = none ∧
      step (at' 0 [0x01#8, 0x00#8, 0x05#8]) = .next (next (at' 0 [0x01#8, 0x00#8, 0x05#8])) :=
  ⟨rfl, rfl, by decide, by decide, rfl⟩

theorem witness_StepReports :
    (at' 0 [0xB4#8, 0x10#8]).runnable = true ∧
      step (at' 0 [0xB4#8, 0x10#8]) = .next (next (at' 0 [0xB4#8, 0x10#8])) ∧
      (next (at' 0 [0xB4#8, 0x10#8])).report = none ∧ (Instr.clear 0#2 1#4 0#4).operand? = none ∧
      usesDevice (.clear 0#2 1#4 0#4) = false ∧ (Instr.td f1).operand? = some f1 ∧ usesDevice (.td f1) = true :=
  ⟨rfl, rfl, by decide, rfl, rfl, rfl, rfl⟩

/-- The state a first instruction `CLEAR X` after reset starts in meets the invariant. -/
theorem witness_StepKeepsInvariant :
    Inv (at' 0 [0xB4#8, 0x10#8]) ∧ step (at' 0 [0xB4#8, 0x10#8]) = .next (next (at' 0 [0xB4#8, 0x10#8])) :=
  ⟨⟨by decide, by decide, by decide, by decide, by decide, by decide, by decide, fun _ _ => rfl⟩, rfl⟩

theorem witness_ReachableStatesMeetInvariant : Reachable (next tiny) ∧ next tiny ≠ tiny :=
  ⟨.step (.load _ .reset) (s := tiny) rfl, by decide⟩

theorem witness_InstructionsWriteTheirRegistersOnly :
    exec (.clear 0#2 1#4 0#4) (at' 0 [0xB4#8, 0x10#8]) = .next (next (at' 0 [0xB4#8, 0x10#8])) := rfl

theorem witness_OnlyStoresChangeMemory :
    exec (.clear 0#2 1#4 0#4) (at' 0 [0xB4#8, 0x10#8]) = .next (next (at' 0 [0xB4#8, 0x10#8])) ∧
      storesToMemory (.clear 0#2 1#4 0#4) = false := ⟨rfl, rfl⟩

/-- `TD` at 2 with the verdict ready: F1 is open after it and was not before. -/
def testing : State := { withF1 (at' 2 [0xE3#8, 0x20#8, 0x0C#8]) false with verdicts := [true] }

theorem witness_OnlyTestOpensDevices :
    testing.runnable = true ∧ devicesWf testing.devices ∧ testing.isOpen 0xF1#8 = false :=
  by decide

theorem witness_OnlyTestOpensDevices_opens :
    ∃ t, step testing = .next t ∧ t.isOpen 0xF1#8 = true := ⟨_, rfl, rfl⟩

/-- `WD` at 0xB on open F1. -/
def writing : State := withF1 (at' 0xB [0xDF#8, 0x20#8, 0x03#8] { Regs.zero with a := 0x41#24 }) true

theorem witness_OutputGrowsByWriteOnly :
    devicesWf writing.devices ∧ step writing = .next (next writing) ∧ writing.deviceOutput 0xF1#8 = [] ∧
      (next writing).deviceOutput 0xF1#8 = [0x41#8] := ⟨by decide, rfl, by decide, by decide⟩

theorem witness_OtherInstructionsIgnoreDevices :
    usesDevice (.clear 0#2 1#4 0#4) = false ∧
      exec (.clear 0#2 1#4 0#4) (at' 0 [0xB4#8, 0x10#8]) = .next (next (at' 0 [0xB4#8, 0x10#8])) := ⟨rfl, rfl⟩

/-- The loader before any record, and in a section at 0x10 that is 5 bytes long. -/
def fresh : LoadState := ⟨State.reset, none, []⟩
def inside : LoadState := ⟨State.reset, some ⟨"P".toList, 16, 5⟩, [[("Q".toList, 2)]]⟩

theorem witness_HeaderOpensSection :
    parseHeader "A 000000000003".toList = some ("A".toList, 3) ∧ fresh.cur = none ∧
      inside.cur = some ⟨"P".toList, 16, 5⟩ := by decide

theorem witness_TextRecordPlacesBytes :
    inside.cur = some ⟨"P".toList, 16, 5⟩ ∧ inside.machine.mem.wf ∧ parseText "0000000300ZZ10".toList = none ∧
      parseText "00000000".toList = some (0, []) ∧
      parseText "00000103AABBCC".toList = some (1, [0xAA#8, 0xBB#8, 0xCC#8]) := by decide

theorem witness_ModificationAdjustsField :
    inside.cur = some ⟨"P".toList, 16, 5⟩ ∧ inside.machine.mem.wf ∧
      parseModification "00000105+Q".toList = some ⟨1, 5, true, "Q".toList⟩ ∧
      parseModification "000001FF-Q".toList = some ⟨1, 255, false, "Q".toList⟩ ∧
      parseModification "00000100+NOPE".toList = some ⟨1, 0, true, "NOPE".toList⟩ ∧
      lookupSymbol inside.tables "Q".toList = some 2 ∧ lookupSymbol inside.tables "NOPE".toList = none := by decide

theorem witness_RecordBeforeHeaderRaised : fresh.cur = none ∧ 'E' ∈ ['D', 'T', 'E'] := by decide

theorem witness_LoadSucceeds : tiny.report = none := by decide

theorem witness_LoadFails : (State.reset.load (artifact ["E"])).report = some (.recordBeforeHeader 1) := by decide

theorem witness_ActiveSectionOwnsPc :
    afterPass1.activeSection = some ⟨"MAIN".toList, 0, 17⟩ ∧ State.reset.activeSection = none := by decide

theorem witness_ReferenceShortRead :
    (RefDevice.mk true [1#8, 2#8] 0 []).isOpen = true ∧
      ((RefDevice.mk true [1#8, 2#8] 0 []).input.drop (refPosition (RefDevice.mk true [1#8, 2#8] 0 []).cursor)).length < 4 :=
  ⟨rfl, by simp only [List.length_drop, List.length_cons, List.length_nil]; omega⟩

end Sys2Proof.Tests
end

section
/-! PROOFS. The memory accessors (spec 20): addresses that name one cell, words as three bytes, and the statements O8 and O9. -/

namespace Sys2Proof.Machine

/-! ### Addresses that name one cell (R51) -/

theorem State.readByte_congr_addr (s : State) {a b : Int} (hab : a16 a = a16 b) : s.readByte a = s.readByte b := by
  simp only [State.readByte, Memory.readByte, hab]

theorem State.writeByte_congr_addr (s : State) {a b : Int} (v : Int) (hab : a16 a = a16 b) :
    s.writeByte a v = s.writeByte b v := by
  simp only [State.writeByte, Memory.writeByte, hab]

/-! ### Words (R53) -/

theorem State.readWord_toNat_bytes (s : State) (a : Int) :
    (s.readWord a).toNat =
      (s.readByte a).toNat * 65536 + (s.readByte (a + 1)).toNat * 256 + (s.readByte (a + 2)).toNat := by
  rw [State.readWord_toNat]
  simp only [Memory.read, State.readByte, Nat.cast_zero, Nat.cast_one, Nat.cast_ofNat, add_zero]
  omega

theorem State.readWord_writeWord {s : State} (hm : s.mem.wf) (a : Int) (v : Word) :
    (s.writeWord a v).readWord a = v := by
  apply BitVec.eq_of_toNat_eq
  have hread := Memory.read_write hm a 3 (by omega) v.toNat
  have hv := v.isLt
  rw [State.readWord_toNat, State.writeWord_mem]
  omega

/-! ### The two statements -/

/-- Settles O8, from read-after-write of one byte, of one word (`Memory.read_write`), and the wrap of addresses. -/
theorem memoryProperties : Obligations.MemoryProperties :=
  ⟨fun _ a v hm => State.readByte_writeByte_same hm a v,
    fun s a => s.readByte_congr_addr (a16_add_65536 a),
    fun s a v => s.writeByte_congr_addr v (a16_add_65536 a),
    fun _ a v hm => State.readWord_writeWord hm a v⟩

/-- Settles O9, from the sum of the three bytes read and the model's `State.writeWord_bytes`. -/
theorem wordAccessors : Obligations.WordAccessors :=
  ⟨State.readWord_toNat_bytes, fun _ a v hm => State.writeWord_bytes hm a v⟩

end Sys2Proof.Machine
end

section
/-! PROOFS. The length of a decoded instruction (spec 30, R87): the two steps of `decode`, the length each mnemonic gives,
and the statement O5. -/

namespace Sys2Proof

/-! ### The two steps of the decoder: the table lookup, then the fields (R81, R112) -/

theorem decode_eq_ok_iff {b1 b2 b3 b4 : Byte} {i : Instr} :
    decode b1 b2 b3 b4 = .ok i ↔ ∃ m, lookupOpcode (b1 &&& 0xFC#8) = some m ∧ assemble m b1 b2 b3 b4 = i := by
  rw [decode]
  cases lookupOpcode (b1 &&& 0xFC#8) with
  | none => simp
  | some m => simp

/-! ### The length of what was decoded (R87, R114) -/

theorem decodeOperand_len (b1 b2 b3 b4 : Byte) :
    (decodeOperand b1 b2 b3 b4).field.len = if b2.toNat / 16 % 2 = 1 then 4 else 3 := by
  have he : b2.getLsbD 4 = decide (b2.toNat / 16 % 2 = 1) := Nat.testBit_eq_decide_div_mod_eq
  simp only [decodeOperand, he, decide_eq_true_eq]
  split
  · rfl
  · rfl

/-- The opcode decides first: the operand's flag e is asked only outside CLEAR, COMPR and TIXR. -/
theorem assemble_length (m : Mnemonic) (b1 b2 b3 b4 : Byte) :
    (assemble m b1 b2 b3 b4).length =
      if m ∈ [.CLEAR, .COMPR, .TIXR] then 2 else (decodeOperand b1 b2 b3 b4).field.len := by
  cases m <;> rfl

end Sys2Proof

namespace Sys2Proof.Machine

/-- Settles O5, from the mnemonic the table gives (`decode_eq_ok_iff`), the length by mnemonic (`assemble_length`) and
the flag e (`decodeOperand_len`). -/
theorem lengthByOpcodeThenE : Obligations.LengthByOpcodeThenE := by
  intro b1 b2 b3 b4 i hdec
  obtain ⟨m, hm, rfl⟩ := decode_eq_ok_iff.mp hdec
  rw [assemble_length, decodeOperand_len, hm]
  simp only [List.mem_cons, Option.some.injEq, List.not_mem_nil]

end Sys2Proof.Machine
end

section
/-! PROOFS. The addressing-mode resolver (spec 40 section 2): the operand's flags and field as integers, the resolver's answer
by addressing mode, and the statements O14 and O15. -/

namespace Sys2Proof

/-! ### The flags and the field of a decoded operand (R82 to R85) -/

theorem decodeOperand_n (b1 b2 b3 b4 : Byte) : (decodeOperand b1 b2 b3 b4).n = decide (b1.toNat / 2 % 2 = 1) :=
  Nat.testBit_eq_decide_div_mod_eq

theorem decodeOperand_i (b1 b2 b3 b4 : Byte) : (decodeOperand b1 b2 b3 b4).i = decide (b1.toNat % 2 = 1) :=
  Nat.testBit_zero b1.toNat

theorem decodeOperand_x (b1 b2 b3 b4 : Byte) : (decodeOperand b1 b2 b3 b4).x = decide (b2.toNat / 128 % 2 = 1) :=
  Nat.testBit_eq_decide_div_mod_eq

theorem decodeOperand_b (b1 b2 b3 b4 : Byte) : (decodeOperand b1 b2 b3 b4).b = decide (b2.toNat / 64 % 2 = 1) :=
  Nat.testBit_eq_decide_div_mod_eq

theorem decodeOperand_p (b1 b2 b3 b4 : Byte) : (decodeOperand b1 b2 b3 b4).p = decide (b2.toNat / 32 % 2 = 1) :=
  Nat.testBit_eq_decide_div_mod_eq

theorem toNat_append_byte {w : Nat} (hi : BitVec w) (lo : Byte) : (hi ++ lo).toNat = hi.toNat * 256 + lo.toNat := by
  rw [BitVec.toNat_append, ← Nat.shiftLeft_add_eq_or_of_lt lo.isLt, Nat.shiftLeft_eq]

theorem toNat_disp_bits (b2 b3 : Byte) : (b2.extractLsb' 0 4 ++ b3).toNat = b2.toNat % 16 * 256 + b3.toNat := by
  rw [toNat_append_byte, BitVec.extractLsb'_toNat, Nat.shiftRight_zero]

/-- The flag e decides which constructor the field is. -/
theorem decodeOperand_field (b1 b2 b3 b4 : Byte) :
    (decodeOperand b1 b2 b3 b4).field =
      if b2.toNat / 16 % 2 = 1 then .addr (b2.extractLsb' 0 4 ++ b3 ++ b4) else .disp (b2.extractLsb' 0 4 ++ b3) := by
  have he : b2.getLsbD 4 = decide (b2.toNat / 16 % 2 = 1) := Nat.testBit_eq_decide_div_mod_eq
  simp only [decodeOperand, he, decide_eq_true_eq]

end Sys2Proof

namespace Sys2Proof.Machine

/-! ### The fields and modes of R114 to R120 on the bytes -/

theorem fieldRaw_decodeOperand (b1 b2 b3 b4 : Byte) :
    fieldRaw (decodeOperand b1 b2 b3 b4).field =
      if b2.toNat / 16 % 2 = 1 then (((b2.toNat % 16) * 256 + b3.toNat) * 256 + b4.toNat : Int)
      else (b2.toNat % 16) * 256 + b3.toNat := by
  rw [decodeOperand_field]
  split
  · simp only [fieldRaw, toNat_append_byte _ b4, toNat_disp_bits]
    push_cast
    rfl
  · simp only [fieldRaw, toNat_disp_bits]
    push_cast
    rfl

/-- Only a 12-bit displacement is sign-extended (R117). -/
theorem fieldSigned_decodeOperand (b1 b2 b3 b4 : Byte) :
    fieldSigned (decodeOperand b1 b2 b3 b4).field =
      if b2.toNat / 16 % 2 = 1 then fieldRaw (decodeOperand b1 b2 b3 b4).field
      else if fieldRaw (decodeOperand b1 b2 b3 b4).field < 2048 then fieldRaw (decodeOperand b1 b2 b3 b4).field
      else fieldRaw (decodeOperand b1 b2 b3 b4).field - 4096 := by
  rw [decodeOperand_field]
  split
  · rfl
  · simp only [fieldSigned, fieldRaw, sext12, Nat.cast_lt_ofNat]

theorem isImmediate_decodeOperand (b1 b2 b3 b4 : Byte) :
    isImmediate (decodeOperand b1 b2 b3 b4) = true ↔ b1.toNat / 2 % 2 = 0 ∧ b1.toNat % 2 = 1 := by
  simp [isImmediate, decodeOperand_n, decodeOperand_i]

theorem isIndirect_decodeOperand (b1 b2 b3 b4 : Byte) :
    isIndirect (decodeOperand b1 b2 b3 b4) = true ↔ b1.toNat / 2 % 2 = 1 ∧ b1.toNat % 2 = 0 := by
  simp [isIndirect, decodeOperand_n, decodeOperand_i]

/-! ### The resolver's answer outside immediate mode -/

/-- Indirect mode ignores x (R119). -/
theorem resolve_indirect (x b p : Bool) (f : Field) (s : State) :
    resolve ⟨true, false, x, b, p, f⟩ s =
      ⟨(s.readWord (baseAddress ⟨true, false, x, b, p, f⟩ s)).toNat, false, f.len⟩ := rfl

theorem resolve_pcRelative (f : Field) (s : State) :
    resolve ⟨true, true, false, false, true, f⟩ s =
      ⟨fieldSigned f + ((s.pc.toNat : Int) + f.len), false, f.len⟩ := rfl

/-! ### The two statements -/

/-- Settles O14: the modes, the base selection and the field of R122, each rewritten to its condition on the bytes. -/
theorem resolverByTheBytes : Obligations.ResolverByTheBytes := by
  intro s b1 b2 b3 b4 n i x b p e disp len raw field ta
  have hlen : (decodeOperand b1 b2 b3 b4).field.len = len := decodeOperand_len b1 b2 b3 b4
  have hraw : fieldRaw (decodeOperand b1 b2 b3 b4).field = raw := fieldRaw_decodeOperand b1 b2 b3 b4
  have hfield : fieldSigned (decodeOperand b1 b2 b3 b4).field = field := by
    rw [fieldSigned_decodeOperand, hraw]
    simp only [field, raw]
    split <;> rfl
  have hta : baseAddress (decodeOperand b1 b2 b3 b4) s = ta := by
    simp only [baseAddress, hfield, hlen, decodeOperand_b, decodeOperand_p, decide_eq_true_eq, ← add_assoc]
    rfl
  simp only [resolve, hlen, hraw, hta, isImmediate_decodeOperand, isIndirect_decodeOperand, decodeOperand_x,
    decide_eq_true_eq]
  rfl

/-- Settles O15, from the resolver's answers in PC-relative and in indirect mode. -/
theorem resolverProperties : Obligations.ResolverProperties := by
  refine ⟨fun s d => ?_, fun s x b p f => ?_⟩
  · rw [resolve_pcRelative, add_comm]
    rfl
  · rw [resolve_indirect]
    exact ⟨rfl, rfl⟩

end Sys2Proof.Machine
end

section
/-! PROOFS. Loads (spec 41): what an instruction that writes one register and falls through leaves behind, and the
statement O16. -/

namespace Sys2Proof.Machine

/-! ### One register written, then the closing PC write (R126, R140) -/

/-- The register is not PC, so the closing PC write leaves its value there (R126). -/
theorem exec_setReg_fallThrough {i : Instr} {s : State} {r : Reg} {v : Word} {len : Nat} (hr : r ≠ .PC)
    (hlen : len ≤ 4) (hp : s.pc.toNat < 65536) (hi : handler i s = (s.setReg r v).fallThrough s.pc len) :
    ∃ t, exec i s = .next t ∧ t.reg r = v ∧ t.pc.toNat = s.pc.toNat + len ∧
      KeepsRegsBut [r, .PC] s t ∧ KeepsMemory s t ∧ KeepsDevices s t ∧ KeepsLoaded s t ∧ Executed i.mnemonic s t := by
  have hok := exec_of_ok (hi.trans (fallThrough_ok _ hp hlen))
  refine ⟨_, hok, ?value, ?pc, ?regs, fun _ => rfl, ⟨rfl, rfl, rfl⟩, ⟨rfl, rfl, rfl, rfl⟩,
    retire_executed s _ _ _ _ _ _ rfl rfl⟩
  case value => rw [State.retire_reg, State.reg_setReg_other _ _ hr, State.reg_setReg_same]
  case pc => rw [State.retire_pc, State.setReg_PC_pc, ofNat_toNat_small (by omega)]
  case regs =>
    intro q hq
    obtain ⟨hqr, hqpc⟩ : q ≠ r ∧ q ≠ .PC := by simpa using hq
    rw [State.retire_reg, State.reg_setReg_other _ _ hqpc, State.reg_setReg_other _ _ hqr]

/-- LDA, LDB and LDT are one load, each into its own register, and none of the three is PC (R141 to R143). -/
theorem handler_loadWord {s : State} {o : Operand} {i : Instr} {r : Reg}
    (hir : (i, r) ∈ [(Instr.lda o, Reg.A), (Instr.ldb o, Reg.B), (Instr.ldt o, Reg.T)]) :
    r ≠ .PC ∧ handler i s = (s.setReg r (wordOperand (resolve o s) s)).fallThrough s.pc o.field.len := by
  simp only [List.mem_cons, List.not_mem_nil, or_false, Prod.mk.injEq] at hir
  obtain ⟨rfl, rfl⟩ | ⟨rfl, rfl⟩ | ⟨rfl, rfl⟩ := hir
  · exact ⟨nofun, rfl⟩
  · exact ⟨nofun, rfl⟩
  · exact ⟨nofun, rfl⟩

/-! ### The statement -/

/-- Settles O16, from the common handler of the three loads and the value of their operand (`wordOperand_toNat`). -/
theorem loadWordResult : Obligations.LoadWordResult := by
  intro s o i r hir hp d
  obtain ⟨hr, hi⟩ := handler_loadWord hir
  obtain ⟨t, hexec, hval, hpc, hframe⟩ := exec_setReg_fallThrough hr o.field.len_le hp hi
  refine ⟨t, hexec, hval ▸ wordOperand_toNat o s, ?_, hframe⟩
  show _ = s.pc.toNat + (resolve o s).len
  rw [resolve_len, hpc]

end Sys2Proof.Machine
end

section
/-! PROOFS. Subroutine return (spec 43, R174): what an instruction that only writes PC leaves behind, and the statement
O29. -/

namespace Sys2Proof.Machine

/-! ### PC written, nothing else (R126, R174) -/

/-- The draw counter may move: RSUB draws the effective address it reports, which the source leaves open (U8). -/
theorem exec_setReg_PC {i : Instr} {s : State} {n : Nat} {w : Word}
    (hi : handler i s = .ok ({ s with draws := n }.setReg .PC w)) :
    ∃ t, exec i s = .next t ∧ t.pc = w ∧
      KeepsRegsBut [.PC] s t ∧ KeepsMemory s t ∧ KeepsDevices s t ∧ KeepsLoaded s t ∧ Executed i.mnemonic s t := by
  refine ⟨_, exec_of_ok hi, ?pc, ?regs, fun _ => rfl, ⟨rfl, rfl, rfl⟩, ⟨rfl, rfl, rfl, rfl⟩,
    retire_executed s _ _ _ _ _ _ rfl rfl⟩
  case pc => rw [State.retire_pc, State.setReg_PC_pc]
  case regs =>
    intro q hq
    have hqpc : q ≠ .PC := by simpa using hq
    rw [State.retire_reg, State.reg_setReg_other _ _ hqpc]
    rfl

/-! ### The statement -/

/-- Settles O29: the handler of RSUB resolves no operand and puts L into PC. -/
theorem subroutineReturnResult : Obligations.SubroutineReturnResult :=
  fun _ _ => exec_setReg_PC rfl

end Sys2Proof.Machine
end

section
/-! PROOFS. Decoder and encoder (spec 30): the opcode table read in both directions, the operand's fields read back
from its bytes, the bytes rebuilt from the fields, and the statements O1 to O4. -/

namespace Sys2Proof

/-! ### The opcode table read in both directions (R88) -/

theorem lookupOpcode_opcodeOf (m : Mnemonic) : lookupOpcode (opcodeOf m) = some m := by
  cases m <;> decide

theorem opcodeOf_of_mem_optab : ∀ row ∈ optab, opcodeOf row.2 = row.1 := by
  decide

theorem opcodeOf_of_lookupOpcode {k : Byte} {m : Mnemonic} (h : lookupOpcode k = some m) : opcodeOf m = k := by
  obtain ⟨row, hfind, rfl⟩ := Option.map_eq_some_iff.mp h
  have hkey : row.1 = k := by simpa using List.find?_some hfind
  rw [opcodeOf_of_mem_optab row (List.mem_of_find?_eq_some hfind), hkey]

/-! ### From the bytes of an encoding to the instruction's fields (R81 to R86) -/

theorem encodeByte1_low (m : Mnemonic) (lo : BitVec 2) : (encodeByte1 m lo).extractLsb' 0 2 = lo :=
  BitVec.extractLsb'_append_eq_right

theorem encodeByte1_flags (m : Mnemonic) (n i : Bool) :
    (encodeByte1 m (BitVec.ofBool n ++ BitVec.ofBool i)).getLsbD 1 = n ∧
      (encodeByte1 m (BitVec.ofBool n ++ BitVec.ofBool i)).getLsbD 0 = i := by
  have hlow : ∀ k < 2, (encodeByte1 m (BitVec.ofBool n ++ BitVec.ofBool i)).getLsbD k =
      (BitVec.ofBool n ++ BitVec.ofBool i).getLsbD k :=
    fun k hk => BitVec.getLsbD_append.trans (if_pos hk)
  rw [hlow 1 (by decide), hlow 0 (by decide), BitVec.getLsbD_append, BitVec.getLsbD_append]
  simp

/-- Byte 2 of formats 3 and 4: the flags x, b, p and e over the top four bits of the field (R82, R83). -/
def operandByte2 (x b p : Bool) (e : BitVec 1) (top : BitVec 4) : Byte :=
  BitVec.ofBool x ++ BitVec.ofBool b ++ BitVec.ofBool p ++ e ++ top

theorem operandByte2_fields (x b p : Bool) (e : BitVec 1) (top : BitVec 4) :
    (operandByte2 x b p e top).getLsbD 7 = x ∧ (operandByte2 x b p e top).getLsbD 6 = b ∧
      (operandByte2 x b p e top).getLsbD 5 = p ∧ (operandByte2 x b p e top).getLsbD 4 = e.getLsbD 0 ∧
      (operandByte2 x b p e top).extractLsb' 0 4 = top := by
  revert x b p e top
  decide

theorem encodeOperand_disp (m : Mnemonic) (n i x b p : Bool) (d : BitVec 12) :
    encodeOperand m ⟨n, i, x, b, p, .disp d⟩ =
      [encodeByte1 m (BitVec.ofBool n ++ BitVec.ofBool i), operandByte2 x b p 0#1 (d.extractLsb' 8 4),
        d.extractLsb' 0 8] := rfl

theorem encodeOperand_addr (m : Mnemonic) (n i x b p : Bool) (a : BitVec 20) :
    encodeOperand m ⟨n, i, x, b, p, .addr a⟩ =
      [encodeByte1 m (BitVec.ofBool n ++ BitVec.ofBool i), operandByte2 x b p 1#1 (a.extractLsb' 16 4),
        a.extractLsb' 8 8, a.extractLsb' 0 8] := rfl

theorem disp_split (d : BitVec 12) : d.extractLsb' 8 4 ++ d.extractLsb' 0 8 = d :=
  BitVec.extractLsb'_append_extractLsb'

theorem addr_split (a : BitVec 20) : a.extractLsb' 16 4 ++ a.extractLsb' 8 8 ++ a.extractLsb' 0 8 = a := by
  have htop : a.extractLsb' 16 4 ++ a.extractLsb' 8 8 = a.extractLsb' 8 12 :=
    BitVec.extractLsb'_append_extractLsb'_eq_extractLsb' rfl
  rw [htop]
  exact BitVec.extractLsb'_append_extractLsb'

theorem decodeOperand_encoded_disp (m : Mnemonic) (n i x b p : Bool) (d : BitVec 12) (b4 : Byte) :
    decodeOperand (encodeByte1 m (BitVec.ofBool n ++ BitVec.ofBool i)) (operandByte2 x b p 0#1 (d.extractLsb' 8 4))
      (d.extractLsb' 0 8) b4 = ⟨n, i, x, b, p, .disp d⟩ := by
  obtain ⟨hn, hi⟩ := encodeByte1_flags m n i
  obtain ⟨hx, hb, hp, he, htop⟩ := operandByte2_fields x b p 0#1 (d.extractLsb' 8 4)
  simp only [decodeOperand, hn, hi, hx, hb, hp, he, htop, disp_split]
  rfl

theorem decodeOperand_encoded_addr (m : Mnemonic) (n i x b p : Bool) (a : BitVec 20) :
    decodeOperand (encodeByte1 m (BitVec.ofBool n ++ BitVec.ofBool i)) (operandByte2 x b p 1#1 (a.extractLsb' 16 4))
      (a.extractLsb' 8 8) (a.extractLsb' 0 8) = ⟨n, i, x, b, p, .addr a⟩ := by
  obtain ⟨hn, hi⟩ := encodeByte1_flags m n i
  obtain ⟨hx, hb, hp, he, htop⟩ := operandByte2_fields x b p 1#1 (a.extractLsb' 16 4)
  simp only [decodeOperand, hn, hi, hx, hb, hp, he, htop, addr_split]
  rfl

theorem decode_encodeByte1 (m : Mnemonic) (lo : BitVec 2) (b2 b3 b4 : Byte) :
    decode (encodeByte1 m lo) b2 b3 b4 = .ok (assemble m (encodeByte1 m lo) b2 b3 b4) := by
  refine decode_eq_ok_iff.mpr ⟨m, ?_, rfl⟩
  rw [Laws.EncodeShape.byte1_masked, lookupOpcode_opcodeOf]

/-- Formats 3 and 4: `mk` is the constructor that belongs to the mnemonic. -/
theorem decodeBytes_encodeOperand {m : Mnemonic} {mk : Operand → Instr}
    (hmk : ∀ b1 b2 b3 b4, assemble m b1 b2 b3 b4 = mk (decodeOperand b1 b2 b3 b4)) (o : Operand) (rest : List Byte) :
    decodeBytes (encodeOperand m o ++ rest) = .ok (mk o) := by
  obtain ⟨n, i, x, b, p, f⟩ := o
  cases f with
  | disp d =>
    refine (decode_encodeByte1 m _ _ _ _).trans ?_
    rw [hmk]
    exact congrArg (Except.ok ∘ mk) (decodeOperand_encoded_disp m n i x b p d _)
  | addr a =>
    refine (decode_encodeByte1 m _ _ _ _).trans ?_
    rw [hmk]
    exact congrArg (Except.ok ∘ mk) (decodeOperand_encoded_addr m n i x b p a)

/-- Format 2: `mk` is the constructor that belongs to the mnemonic. -/
theorem decodeBytes_encodeRegisters {m : Mnemonic} {mk : BitVec 2 → BitVec 4 → BitVec 4 → Instr}
    (hmk : ∀ b1 b2 b3 b4,
      assemble m b1 b2 b3 b4 = mk (b1.extractLsb' 0 2) (b2.extractLsb' 4 4) (b2.extractLsb' 0 4))
    (lo : BitVec 2) (r1 r2 : BitVec 4) (rest : List Byte) :
    decodeBytes (encodeRegisters m lo r1 r2 ++ rest) = .ok (mk lo r1 r2) := by
  calc decodeBytes (encodeRegisters m lo r1 r2 ++ rest)
      = decode (encodeByte1 m lo) (r1 ++ r2) (rest.getD 0 0#8) (rest.getD 1 0#8) := rfl
    _ = .ok (mk lo r1 r2) := by
      rw [decode_encodeByte1, hmk, encodeByte1_low, BitVec.extractLsb'_append_eq_left,
        BitVec.extractLsb'_append_eq_right]

/-! ### From the fields of what was decoded to its bytes -/

theorem encodeByte1_of_lookupOpcode {b1 : Byte} {m : Mnemonic} (h : lookupOpcode (b1 &&& 0xFC#8) = some m) :
    encodeByte1 m (b1.extractLsb' 0 2) = b1 := by
  have hhigh : ∀ v : Byte, (v &&& 0xFC#8).extractLsb' 2 6 = v.extractLsb' 2 6 := by decide
  rw [encodeByte1, opcodeOf_of_lookupOpcode h, hhigh]
  exact BitVec.extractLsb'_append_extractLsb'

theorem low2_eq_flags : ∀ b1 : Byte,
    BitVec.ofBool (b1.getLsbD 1) ++ BitVec.ofBool (b1.getLsbD 0) = b1.extractLsb' 0 2 := by
  decide

theorem operandByte2_of_fields : ∀ b2 : Byte,
    operandByte2 (b2.getLsbD 7) (b2.getLsbD 6) (b2.getLsbD 5) (BitVec.ofBool (b2.getLsbD 4))
      (b2.extractLsb' 0 4) = b2 := by
  decide

theorem addr_bytes (top : BitVec 4) (b3 b4 : Byte) :
    (top ++ b3 ++ b4).extractLsb' 16 4 = top ∧ (top ++ b3 ++ b4).extractLsb' 8 8 = b3 ∧
      (top ++ b3 ++ b4).extractLsb' 0 8 = b4 := by
  refine ⟨?_, ?_, BitVec.extractLsb'_append_eq_right⟩
  · exact (BitVec.extractLsb'_append_eq_of_le (by omega)).trans BitVec.extractLsb'_append_eq_left
  · exact (BitVec.extractLsb'_append_eq_of_le (by omega)).trans BitVec.extractLsb'_append_eq_right

/-- The flag e decides how many of the four bytes the operand takes. -/
theorem encodeOperand_decodeOperand {b1 : Byte} {m : Mnemonic} (h : lookupOpcode (b1 &&& 0xFC#8) = some m)
    (b2 b3 b4 : Byte) :
    encodeOperand m (decodeOperand b1 b2 b3 b4) =
      [b1, b2, b3, b4].take (decodeOperand b1 b2 b3 b4).field.len := by
  have h1 := encodeByte1_of_lookupOpcode h
  have h2 := operandByte2_of_fields b2
  cases he : b2.getLsbD 4 with
  | false =>
    rw [he] at h2
    simp only [decodeOperand, he, Bool.false_eq_true, if_false, encodeOperand_disp, low2_eq_flags, h1,
      BitVec.extractLsb'_append_eq_left, BitVec.extractLsb'_append_eq_right]
    exact congrArg (fun b => [b1, b, b3]) h2
  | true =>
    rw [he] at h2
    obtain ⟨htop, hb3, hb4⟩ := addr_bytes (b2.extractLsb' 0 4) b3 b4
    simp only [decodeOperand, he, if_true, encodeOperand_addr, low2_eq_flags, h1, htop, hb3, hb4]
    exact congrArg (fun b => [b1, b, b3, b4]) h2

theorem encodeRegisters_decoded {b1 : Byte} {m : Mnemonic} (h : lookupOpcode (b1 &&& 0xFC#8) = some m)
    (b2 b3 b4 : Byte) :
    encodeRegisters m (b1.extractLsb' 0 2) (b2.extractLsb' 4 4) (b2.extractLsb' 0 4) = [b1, b2, b3, b4].take 2 := by
  have h2 : b2.extractLsb' 4 4 ++ b2.extractLsb' 0 4 = b2 := BitVec.extractLsb'_append_extractLsb'
  rw [encodeRegisters, encodeByte1_of_lookupOpcode h, h2]
  rfl

/-! ### The unassigned opcodes (R90) -/

theorem decode_eq_error_iff {b1 b2 b3 b4 : Byte} {e : DecodeError} :
    decode b1 b2 b3 b4 = .error e ↔ lookupOpcode (b1 &&& 0xFC#8) = none ∧ e = .unknownOpcode b1 := by
  rw [decode]
  cases lookupOpcode (b1 &&& 0xFC#8) with
  | none => simp [eq_comm]
  | some m => simp

end Sys2Proof

namespace Sys2Proof.Machine

/-! ### The four statements -/

/-- Settles O2: seventeen instructions have an operand (`decodeBytes_encodeOperand`), three have two register indexes
(`decodeBytes_encodeRegisters`). -/
theorem decodeInvertsEncode : Obligations.DecodeInvertsEncode := by
  intro i rest
  cases i
  case compr lo r1 r2 => exact decodeBytes_encodeRegisters (m := .COMPR) (fun _ _ _ _ => rfl) lo r1 r2 rest
  case clear lo r1 r2 => exact decodeBytes_encodeRegisters (m := .CLEAR) (fun _ _ _ _ => rfl) lo r1 r2 rest
  case tixr lo r1 r2 => exact decodeBytes_encodeRegisters (m := .TIXR) (fun _ _ _ _ => rfl) lo r1 r2 rest
  all_goals exact decodeBytes_encodeOperand (fun _ _ _ _ => rfl) _ rest

/-- Settles O3: the table gives the mnemonic, and its bytes are rebuilt by format (`encodeOperand_decodeOperand`,
`encodeRegisters_decoded`). -/
theorem encodeInvertsDecode : Obligations.EncodeInvertsDecode := by
  intro b1 b2 b3 b4 i hdec
  obtain ⟨m, hm, rfl⟩ := decode_eq_ok_iff.mp hdec
  cases m
  case COMPR => exact encodeRegisters_decoded hm b2 b3 b4
  case CLEAR => exact encodeRegisters_decoded hm b2 b3 b4
  case TIXR => exact encodeRegisters_decoded hm b2 b3 b4
  all_goals exact encodeOperand_decodeOperand hm b2 b3 b4

/-- Settles O4: the 44 values are, among the 64 a masked byte can have, the ones the table lacks. -/
theorem unassignedOpcodesRejected : Obligations.UnassignedOpcodesRejected := by
  intro b1 b2 b3 b4
  refine ⟨fun hmem => decode_eq_error_iff.mpr ⟨?_, rfl⟩, fun hmem => ?_⟩
  · revert b1
    decide
  · have hsome : (lookupOpcode (b1 &&& 0xFC#8)).isSome := by
      revert b1
      decide
    obtain ⟨m, hm⟩ := Option.isSome_iff_exists.mp hsome
    exact ⟨_, decode_eq_ok_iff.mpr ⟨m, hm, rfl⟩⟩

/-- Settles O1: the decoder run on the seven byte sequences. -/
theorem specBytesDecode : Obligations.SpecBytesDecode := by
  unfold Obligations.SpecBytesDecode
  decide

end Sys2Proof.Machine
end

section
/-! PROOFS. What an instruction leaves unchanged (10 R46): registers by the table, memory but for the stores, the
device table but for the device instructions, and what a handler can do to one device; the statements O47 and O48.
-/

namespace Sys2Proof.Machine

/-! ### Registers (R46) -/

theorem keepsRegsBut_setReg {rs : List Reg} {s t : State} {r : Reg} (w : Word) (hr : r ∈ rs)
    (h : KeepsRegsBut rs s t) : KeepsRegsBut rs s (t.setReg r w) := by
  intro q hq
  rw [State.reg_setReg_other _ _ (ne_of_mem_of_not_mem hr hq).symm, h q hq]

theorem keepsRegsBut_of_regs_eq {rs : List Reg} {s t : State} (h : t.regs = s.regs) : KeepsRegsBut rs s t :=
  fun q _ => congrArg (fun g => Regs.get g q) h

/-- An instruction writes its registers and then PC; everything else it does leaves the register file alone. -/
theorem handler_keepsRegs {i : Instr} {s u : State} (h : handler i s = .ok u) :
    KeepsRegsBut (.PC :: writesOf i) s u := by
  have he := handler_effect h
  have hpc : ∀ {t : State} (w : Word), KeepsRegsBut (.PC :: writesOf i) s t →
      KeepsRegsBut (.PC :: writesOf i) s (t.setReg .PC w) :=
    fun w ht => keepsRegsBut_setReg w (List.mem_cons_self ..) ht
  cases i <;> simp only [Effect] at he
  case rsub o => exact he ▸ hpc _ (keepsRegsBut_of_regs_eq rfl)
  case td o =>
    obtain ⟨v, w, -, rfl⟩ := he
    obtain ⟨ds, vs, n, hf, -⟩ := devTest_frame s (s.readByte (resolve o s).ea)
    rw [hf]
    exact hpc w (keepsRegsBut_setReg v (by simp [writesOf]) (keepsRegsBut_of_regs_eq rfl))
  case rd o =>
    obtain ⟨v, w, -, rfl⟩ := he
    obtain ⟨n, hf, -⟩ := devRead_frame s (s.readByte (resolve o s).ea)
    rw [hf]
    exact hpc w (keepsRegsBut_setReg v (by simp [writesOf]) (keepsRegsBut_of_regs_eq rfl))
  case wd o =>
    obtain ⟨w, -, rfl⟩ := he
    exact hpc w (keepsRegsBut_of_regs_eq rfl)
  case clear lo r1 r2 =>
    obtain ⟨r, w, hr, rfl⟩ := he
    exact hpc w (keepsRegsBut_setReg _ (by simp [writesOf, hr]) (keepsRegsBut_of_regs_eq rfl))
  case tixr lo r1 r2 =>
    obtain ⟨x, a, b, w, rfl⟩ := he
    exact hpc w (keepsRegsBut_setReg _ (by simp [writesOf])
      (keepsRegsBut_setReg x (by simp [writesOf]) (keepsRegsBut_of_regs_eq rfl)))
  case compr lo r1 r2 =>
    obtain ⟨a, b, w, rfl⟩ := he
    exact hpc w (keepsRegsBut_setReg _ (by simp [writesOf]) (keepsRegsBut_of_regs_eq rfl))
  case jsub o =>
    obtain ⟨l, w, rfl⟩ := he
    exact hpc w (keepsRegsBut_setReg l (by simp [writesOf]) (keepsRegsBut_of_regs_eq rfl))
  case lda | ldb | ldt | ldch | comp =>
    obtain ⟨w, rfl⟩ := he
    exact hpc w (keepsRegsBut_setReg _ (by simp [writesOf]) (keepsRegsBut_of_regs_eq rfl))
  all_goals
    obtain ⟨w, rfl⟩ := he
    exact hpc w (keepsRegsBut_of_regs_eq rfl)

/-! ### Memory and the device table (R46) -/

/-- Memory is the stores' alone, and the device table the device instructions'. -/
theorem handler_keepsTables {i : Instr} {s u : State} (h : handler i s = .ok u) :
    (storesToMemory i = false → u.mem = s.mem) ∧ (usesDevice i = false → u.devices = s.devices) := by
  have he := handler_effect h
  cases i <;> simp only [Effect] at he
  case sta | stx | stl | stch => obtain ⟨w, rfl⟩ := he; exact ⟨nofun, fun _ => rfl⟩
  case td o =>
    obtain ⟨v, w, -, rfl⟩ := he
    obtain ⟨ds, vs, n, hf, -⟩ := devTest_frame s (s.readByte (resolve o s).ea)
    rw [hf]
    exact ⟨fun _ => rfl, nofun⟩
  case rd o =>
    obtain ⟨v, w, -, rfl⟩ := he
    obtain ⟨n, hf, -⟩ := devRead_frame s (s.readByte (resolve o s).ea)
    rw [hf]
    exact ⟨fun _ => rfl, nofun⟩
  case wd => obtain ⟨w, -, rfl⟩ := he; exact ⟨fun _ => rfl, nofun⟩
  case rsub => rw [he]; exact ⟨fun _ => rfl, fun _ => rfl⟩
  case clear => obtain ⟨r, w, -, rfl⟩ := he; exact ⟨fun _ => rfl, fun _ => rfl⟩
  case tixr => obtain ⟨x, a, b, w, rfl⟩ := he; exact ⟨fun _ => rfl, fun _ => rfl⟩
  case compr => obtain ⟨a, b, w, rfl⟩ := he; exact ⟨fun _ => rfl, fun _ => rfl⟩
  case jsub => obtain ⟨l, w, rfl⟩ := he; exact ⟨fun _ => rfl, fun _ => rfl⟩
  all_goals obtain ⟨w, rfl⟩ := he; exact ⟨fun _ => rfl, fun _ => rfl⟩

theorem handler_mem_wf {i : Instr} {s u : State} (h : handler i s = .ok u) (hm : s.mem.wf) : u.mem.wf := by
  cases hi : storesToMemory i with
  | false => exact (handler_keepsTables h).1 hi ▸ hm
  | true =>
    have he := handler_effect h
    cases i <;> simp only [Effect] at he
    case sta | stx | stl => obtain ⟨w, rfl⟩ := he; exact Memory.write_wf hm _ _ _
    case stch => obtain ⟨w, rfl⟩ := he; exact Memory.writeByte_wf hm _ _
    all_goals cases hi

/-! ### Devices (R180) -/

theorem State.device_congr {s t : State} (h : t.devices = s.devices) (id : Byte) : t.device id = s.device id := by
  rw [State.device, State.device, h]

theorem device_setDevice {s : State} (h : devicesWf s.devices) (id j : Byte) (x : Handle) :
    (s.setDevice id x).device j = if j = id then x else s.device j := by
  split
  · subst j; exact device_setDevice_same h id x
  · exact device_setDevice_other h ‹_› x

/-- What an instruction can leave of the handle of device `id`: TD opens it, RD moves its cursor, WD adds to what it
was sent (R183 to R185). -/
inductive HandleAfter (i : Instr) (s : State) (id : Byte) : Handle → Prop
  | same : HandleAfter i s id (s.device id)
  | opened {o : Operand} (c : Nat) (hi : i = .td o) (hid : s.readByte (resolve o s).ea = id) (h : s.isOpen id = false) :
    HandleAfter i s id { s.device id with isOpen := true, cursor := c }
  | moved (c : Nat) (h : s.isOpen id = true) : HandleAfter i s id { s.device id with cursor := c }
  | sent {o : Operand} (hi : i = .wd o) (hid : s.readByte (resolve o s).ea = id) (h : s.isOpen id = true) :
    HandleAfter i s id { s.device id with output := (s.device id).output ++ [(s.reg .A).extractLsb' 0 8] }

/-- Everything a handler can do to the device table: nothing, or put one handle. -/
theorem handler_devices {i : Instr} {s u : State} (h : handler i s = .ok u) :
    u.devices = s.devices ∨ ∃ id x, HandleAfter i s id x ∧ u.devices = (s.setDevice id x).devices := by
  cases hi : usesDevice i with
  | false => exact .inl ((handler_keepsTables h).2 hi)
  | true =>
    have he := handler_effect h
    cases i <;> simp only [Effect] at he
    case td o =>
      obtain ⟨v, w, -, rfl⟩ := he
      obtain ⟨ds, vs, n, hf, hds | ⟨c, hclosed, hds⟩⟩ := devTest_frame s (s.readByte (resolve o s).ea)
      · exact .inl (by rw [hf]; exact hds)
      · exact .inr ⟨_, _, .opened c rfl rfl hclosed, by rw [hf]; exact hds⟩
    case rd o =>
      obtain ⟨v, w, hopen, rfl⟩ := he
      obtain ⟨n, hf, -⟩ := devRead_frame s (s.readByte (resolve o s).ea)
      exact .inr ⟨_, _, .moved _ hopen, by rw [hf]; rfl⟩
    case wd o =>
      obtain ⟨w, hopen, rfl⟩ := he
      rw [lo8_word]
      exact .inr ⟨_, _, .sent rfl rfl hopen, rfl⟩
    all_goals cases hi

theorem handler_devices_wf {i : Instr} {s u : State} (h : handler i s = .ok u) (hd : devicesWf s.devices) :
    devicesWf u.devices := by
  obtain hu | ⟨id, x, -, hu⟩ := handler_devices h
  · exact hu ▸ hd
  · exact hu ▸ setDevice_wf hd id x

/-- Everything a handler can do to one device. -/
theorem handler_device {i : Instr} {s u : State} (h : handler i s = .ok u) (hd : devicesWf s.devices) (j : Byte) :
    HandleAfter i s j (u.device j) := by
  obtain hu | ⟨id, x, hx, hu⟩ := handler_devices h
  · exact State.device_congr hu j ▸ .same
  · rw [State.device_congr hu, device_setDevice hd]
    split
    · subst j; exact hx
    · exact .same

/-! ### The two statements -/

/-- Settles O47: a fatal condition writes no register, and a handler only its own (`handler_keepsRegs`). -/
theorem instructionsWriteTheirRegistersOnly : Obligations.InstructionsWriteTheirRegistersOnly := by
  intro i s t h
  obtain ⟨u, hu, rfl⟩ | ⟨k, -, rfl⟩ := exec_cases h
  · exact fun r hr => handler_keepsRegs hu r hr
  · exact keepsRegsBut_of_regs_eq rfl

/-- Settles O48: a fatal condition leaves memory alone, and so does a handler that is no store
(`handler_keepsTables`). -/
theorem onlyStoresChangeMemory : Obligations.OnlyStoresChangeMemory := by
  intro i s t h hi
  obtain ⟨u, hu, rfl⟩ | ⟨k, -, rfl⟩ := exec_cases h
  · exact (State.retire_mem ..).trans ((handler_keepsTables hu).1 hi)
  · rfl

end Sys2Proof.Machine
end

section
/-! PROOFS. The invariant (Inv): power-on meets it, a fatal condition, a close of every device and every instruction
keep it, and the statements O44 and O45. -/

namespace Sys2Proof.Machine

/-! ### What keeps the invariant whatever the instruction -/

theorem device_untouched_of_no_devices {s : State} (h : s.devices = []) (id : Byte) :
    s.device id = Handle.untouched := by
  rw [State.device, h]
  rfl

/-- Settles O44: no entry in any table, every register 0, not runnable, no device open. -/
theorem powerOnMeetsInvariant : Obligations.PowerOnMeetsInvariant where
  mem := Memory.wf_nil
  devices := ⟨sparseWf_nil, nofun⟩
  sections := .nil
  sw := .inr (.inl rfl)
  sZero := rfl
  fetch := nofun
  failed := fun h => absurd rfl h
  closed := fun id _ => by rw [device_untouched_of_no_devices rfl]; rfl

/-- Raising a fatal condition stops the machine and changes nothing the invariant speaks of besides. -/
theorem Inv.raise {s : State} (h : Inv s) (k : Fault) : Inv (s.raise k) where
  mem := h.mem
  devices := h.devices
  sections := h.sections
  sw := h.sw
  sZero := h.sZero
  fetch := nofun
  failed := fun _ => rfl
  closed := h.closed

/-- DevClose leaves no cursor (log 20). -/
theorem Inv.devClose {s : State} (h : Inv s) : Inv s.devClose where
  mem := h.mem
  devices := closeAll_wf h.devices
  sections := h.sections
  sw := h.sw
  sZero := h.sZero
  fetch := h.fetch
  failed := h.failed
  closed := fun id _ => by rw [devClose_device h.devices]; rfl

theorem Inv.withoutReport {s : State} (h : Inv s) : Inv { s with report := none } :=
  { h with failed := fun hk => absurd rfl hk, closed := h.closed }

theorem Inv.idle {s : State} (h : Inv s) : Inv s.idle := h.devClose.withoutReport

/-! ### The condition values and register S (R29, R32) -/

/-- The three values SW may hold (R32). -/
def IsCondition (w : Word) : Prop := w = swLess ∨ w = swEqual ∨ w = swGreater

theorem isCondition_cmpWords (a b : Word) : IsCondition (cmpWords a b) := by
  unfold cmpWords
  split
  · exact .inr (.inl rfl)
  · split
    · exact .inl rfl
    · exact .inr (.inr rfl)

/-- An instruction that writes SW leaves a condition value there: a comparison, the answer of TD, or the 0 of CLEAR.
-/
theorem handler_sw {i : Instr} {s u : State} (h : handler i s = .ok u) (hs : IsCondition (s.reg .SW)) :
    IsCondition (u.reg .SW) := by
  have he := handler_effect h
  by_cases hi : Reg.SW ∈ writesOf i
  · cases i <;> simp only [Effect] at he
    case comp => obtain ⟨w, rfl⟩ := he; exact isCondition_cmpWords _ _
    case compr => obtain ⟨a, b, w, rfl⟩ := he; exact isCondition_cmpWords a b
    case tixr => obtain ⟨x, a, b, w, rfl⟩ := he; exact isCondition_cmpWords a b
    case td => obtain ⟨v, w, hv, rfl⟩ := he; exact .inr hv.symm
    case clear lo r1 r2 =>
      obtain ⟨r, w, hr, rfl⟩ := he
      obtain rfl : Reg.SW = r := by simpa [writesOf, hr] using hi
      exact .inr (.inl rfl)
    all_goals simp [writesOf] at hi
  · rw [handler_keepsRegs h .SW (by simpa using hi)]
    exact hs

/-- Only CLEAR S names register S, and it leaves the 0 that stood there (R29). -/
theorem handler_sZero {i : Instr} {s u : State} (h : handler i s = .ok u) (hs : s.reg .S = 0#24) : u.reg .S = 0#24 := by
  by_cases hi : Reg.S ∈ writesOf i
  · cases i
    case clear lo r1 r2 =>
      obtain ⟨r, w, hr, rfl⟩ := handler_effect h
      obtain rfl : Reg.S = r := by simpa [writesOf, hr] using hi
      rfl
    all_goals simp [writesOf] at hi
  · rw [handler_keepsRegs h .S (by simpa using hi)]
    exact hs

/-! ### Every instruction, and the step -/

theorem handler_closed {i : Instr} {s u : State} (h : handler i s = .ok u) (hd : devicesWf s.devices) (id : Byte)
    (hs : s.isOpen id = false → (s.device id).cursor = 0) (hu : u.isOpen id = false) : (u.device id).cursor = 0 := by
  have hx := handler_device h hd id
  rw [State.isOpen] at hu
  generalize u.device id = x at hu hx
  cases hx with
  | same => exact hs hu
  | opened => cases hu
  | moved c hopen => exact absurd hopen (by simpa [State.isOpen] using hu)
  | sent hi hid hopen => exact absurd hopen (by simpa [State.isOpen] using hu)

/-- The halt condition (R127). -/
theorem retire_runnable_iff (u : State) (m : Mnemonic) (p : Word) (len : Nat) (ea : Int) (dev : Option Byte) :
    (u.retire m p len ea dev).runnable = true ↔ u.runnable = true ∧ u.pc.toNat ≠ 0 ∧ u.pc.toNat < 65536 := by
  rw [State.retire_runnable]
  cases hh : haltsAt u.pc
  · simp_all [haltsAt]
  · simp only [haltsAt, Bool.or_eq_true, beq_iff_eq, decide_eq_true_eq] at hh
    simp only [if_true, Bool.false_eq_true, false_iff]
    omega

theorem Inv.retire {i : Instr} {s u : State} (hs : Inv s) (h : handler i s = .ok u) (len : Nat) (ea : Int)
    (dev : Option Byte) : Inv (u.retire i.mnemonic s.pc len ea dev) where
  mem := by rw [State.retire_mem]; exact handler_mem_wf h hs.mem
  devices := by rw [State.retire_devices]; exact handler_devices_wf h hs.devices
  sections := by
    obtain ⟨g, m, ds, vs, ins, n, rfl⟩ := handler_frame h
    exact hs.sections
  sw := by rw [State.retire_reg]; exact handler_sw h hs.sw
  sZero := by rw [State.retire_reg]; exact handler_sZero h hs.sZero
  fetch := fun hr => ((retire_runnable_iff ..).mp hr).2.2
  failed := fun hk => absurd rfl hk
  closed := fun id => handler_closed h hs.devices id (hs.closed id)

/-- Settles O45: a stopped machine closes its devices (`Inv.idle`), an undecodable byte or a failing instruction is
a raise (`Inv.raise`), and an instruction that ran is retired (`Inv.retire`). -/
theorem stepKeepsInvariant : Obligations.StepKeepsInvariant := by
  intro s t hs hstep
  obtain ⟨-, rfl⟩ | ⟨-, i, -, hexec⟩ | ⟨-, ⟨byte1⟩, -, rfl⟩ := step_cases hstep
  · exact hs.idle
  · obtain ⟨u, hu, rfl⟩ | ⟨k, -, rfl⟩ := exec_cases hexec
    · exact hs.retire hu _ _ _
    · exact hs.raise k
  · exact hs.raise _

end Sys2Proof.Machine
end

section
/-! PROOFS. Registers, reset and the comparison (spec 10, 70, 42 R160), the n-byte accessors (spec 20), and the
statements O6, O7, O10 to O13. -/

namespace Sys2Proof.Machine

/-! ### Reset and initialization (R270 to R273) -/

theorem Memory.readByte_nil (a : Int) : Memory.readByte [] a = 0#8 := rfl

/-- Settles O6: `State.initializeMachine` is the power-on state but for the four fields it keeps, and an empty table
has no open device. -/
theorem powerOnIsInitialized : Obligations.PowerOnIsInitialized := by
  refine ⟨fun s hd hv hi hn => ?_, fun id => ?_, rfl, rfl⟩
  · rw [State.initializeMachine, hd, hv, hi, hn]
    rfl
  · rw [State.isOpen, device_untouched_of_no_devices rfl]
    rfl

/-- Settles O7: every field but the device table and the environment's three is set to a constant. -/
theorem initializeResets : Obligations.InitializeResets := by
  refine ⟨fun s => ⟨fun a => Memory.readByte_nil a, State.initializeMachine_reg s, rfl, rfl, rfl, rfl, rfl, rfl⟩, ?_⟩
  intro s s' hd hv hi hn
  rw [State.initializeMachine, State.initializeMachine, hd, hv, hi, hn]

/-! ### n-byte accessors (R54, R55) -/

/-- Digit k of a read, the most significant first. -/
theorem Memory.read_digit (m : Memory) (addr : Int) {n k : Nat} (hk : k < n) :
    m.read addr n / 256 ^ (n - 1 - k) % 256 = (m.readByte (addr + k)).toNat := by
  induction n with
  | zero => omega
  | succ n ih =>
    have hlast := (m.readByte (addr + n)).isLt
    rw [Memory.read]
    by_cases hkn : k = n
    · subst hkn
      rw [Nat.add_sub_cancel, Nat.sub_self, pow_zero, Nat.div_one]
      omega
    · obtain ⟨j, hj⟩ : ∃ j, n - k = j + 1 := ⟨n - k - 1, by omega⟩
      have hdrop : (m.read addr n * 256 + (m.readByte (addr + n)).toNat) / 256 = m.read addr n := by omega
      rw [← ih (by omega), show n + 1 - 1 - k = (n - 1 - k) + 1 by omega, pow_succ', ← Nat.div_div_eq_div_mul, hdrop]

/-- Settles O10: the digits of a read (`Memory.read_digit`); those of a write are the digits of the field read back
(`Memory.read_write`). -/
theorem multiByteAccessors : Obligations.MultiByteAccessors := by
  refine ⟨fun m addr n k hk => ⟨m.read_digit addr hk, m.read_lt addr n⟩, fun m addr v n k hm hn hk => ?_⟩
  rw [← Memory.read_digit _ _ hk]
  push_cast
  rw [Memory.read_write hm addr n hn v]

/-! ### The register-write rule and the register indexes (R22, R24) -/

theorem trunc24_toNat_emod (v : Int) : ((trunc24 v).toNat : Int) = v % 16777216 := by
  rw [trunc24, BitVec.toNat_ofInt]
  omega

theorem keepsRegsBut_refl (rs : List Reg) (s : State) : KeepsRegsBut rs s s := fun _ _ => rfl

theorem writeReg_outside_wrap (hc : Config.regOverflow = .wrap) {v : Int} (hv : ¬(0 ≤ v ∧ v < 16777216)) (s : State)
    (p : Word) (r : Reg) : s.writeReg p r v = .ok (s.setReg r (trunc24 v)) := by
  rw [State.writeReg, regFit_outside hv, hc]

theorem writeReg_outside_fault (hc : Config.regOverflow = .fault) {v : Int} (hv : ¬(0 ≤ v ∧ v < 16777216)) (s : State)
    (p : Word) (r : Reg) : s.writeReg p r v = .error (.registerOverflow p r v) := by
  rw [State.writeReg, regFit_outside hv, hc]

/-- Settles O11: inside 24 bits `writeReg_inRange`, outside them one lemma for each answer of `REG_OVERFLOW`. -/
theorem registerWriteRule : Obligations.RegisterWriteRule := by
  intro s p r v
  have hframe : KeepsRegsBut [r] s (s.setReg r (trunc24 v)) :=
    keepsRegsBut_setReg _ (List.mem_singleton_self r) (keepsRegsBut_refl _ s)
  refine ⟨fun ⟨h0, h1⟩ => ⟨_, writeReg_inRange s p r h0 (by omega), ?_, hframe⟩, fun hout => ?_⟩
  · rw [State.reg_setReg_same, trunc24_toNat h0 (by omega)]
  · have hv : ¬(0 ≤ v ∧ v < 16777216) := by omega
    cases hc : Config.regOverflow with
    | wrap =>
      refine ⟨_, writeReg_outside_wrap hc hv s p r, ?_, hframe⟩
      rw [State.reg_setReg_same, trunc24_toNat_emod]
    | fault => exact writeReg_outside_fault hc hv s p r

theorem regOfIndex_eq_none_of_mem : ∀ k : BitVec 4, k.toNat ∈ [6, 7, 10, 11, 12, 13, 14, 15] → regOfIndex k = none := by
  decide

/-- Settles O12: the eight named indexes by evaluation, the other eight by `regOfIndex_eq_none_of_mem`. -/
theorem registerIndexes : Obligations.RegisterIndexes :=
  fun _ => ⟨rfl, rfl, rfl, rfl, rfl, rfl, rfl, rfl, fun k hk => regAt_of_none (regOfIndex_eq_none_of_mem k hk)⟩

/-! ### The comparison (R160) -/

theorem lessThan_unsigned (hc : Config.cmpOrder = .unsigned24) (a b : Word) :
    lessThan a b = true ↔ (a.toNat : Int) < b.toNat := by
  simp [lessThan, hc]

theorem toInt_word (a : Word) :
    a.toInt = if a.toNat < 8388608 then (a.toNat : Int) else (a.toNat : Int) - 16777216 := by
  rw [BitVec.toInt_eq_toNat_cond]
  split <;> split <;> omega

/-- Where bit 23 of the operands agrees, so do the two orders. -/
theorem lessThan_signed (hc : Config.cmpOrder = .signed24) (a b : Word) :
    lessThan a b = true ↔ a.toInt < b.toInt := by
  by_cases hmsb : a.msb = b.msb
  · have hsign : a.toNat < 8388608 ↔ b.toNat < 8388608 := by
      rw [BitVec.msb_eq_decide, BitVec.msb_eq_decide, decide_eq_decide] at hmsb
      omega
    simp only [lessThan, hmsb, if_true, decide_eq_true_eq, toInt_word]
    split <;> split <;> omega
  · simp [lessThan, hmsb, hc]

theorem cmpWords_eq_of_order {a b : Word} {va vb : Int} (hlt : lessThan a b = true ↔ va < vb) (heq : a = b ↔ va = vb) :
    cmpWords a b = if va < vb then 0xFFFFFF#24 else if va = vb then 0x000000#24 else 0x000001#24 := by
  unfold cmpWords
  by_cases h : va = vb
  · rw [if_pos (heq.mpr h), if_neg (by omega), if_pos h]
    rfl
  · rw [if_neg (mt heq.mp h), if_neg h]
    simp only [hlt]
    rfl

/-- Settles O13: either order is one of integers (`lessThan_unsigned`, `lessThan_signed`), in which a word has one
value. -/
theorem comparisonByOrder : Obligations.ComparisonByOrder := by
  intro a b va vb
  cases hc : Config.cmpOrder with
  | unsigned24 =>
    have hva : va = a.toNat := by simp only [va, hc]
    have hvb : vb = b.toNat := by simp only [vb, hc]
    rw [hva, hvb]
    exact cmpWords_eq_of_order (lessThan_unsigned hc a b) (by rw [Nat.cast_inj, BitVec.toNat_inj])
  | signed24 =>
    have hva : va = a.toInt := by simp only [va, hc, toInt_word]
    have hvb : vb = b.toInt := by simp only [vb, hc, toInt_word]
    rw [hva, hvb]
    exact cmpWords_eq_of_order (lessThan_signed hc a b) BitVec.toInt_inj.symm

end Sys2Proof.Machine
end

section
/-! PROOFS. Character load, stores, COMP and the register-only instructions (spec 41, 42): what an instruction that
changes memory and falls through leaves behind, and the statements O17 to O25. -/

namespace Sys2Proof.Machine

/-! ### LDCH (R144) -/

theorem charOperand_toNat (o : Operand) (s : State) :
    ((charOperand (resolve o s) s).toNat : Int) =
      if (resolve o s).imm then (resolve o s).ea else ((s.readByte (resolve o s).ea).toNat : Int) := by
  unfold charOperand
  split
  · obtain ⟨himm, hea⟩ := resolve_imm o s
    obtain ⟨h0, h1⟩ := fieldRaw_bounds o.field
    have he := hea (by rw [← himm]; assumption)
    rw [trunc24_toNat (by omega) (by omega)]
  · have hbyte := (s.readByte (resolve o s).ea).isLt
    rw [BitVec.toNat_setWidth, Nat.mod_eq_of_lt (by omega)]

/-- Settles O17, from the effect of one register written (`exec_setReg_fallThrough`) and the value of the operand. -/
theorem loadCharacterResult : Obligations.LoadCharacterResult := by
  intro s o hp d
  obtain ⟨t, hexec, hval, hpc, hframe⟩ :=
    exec_setReg_fallThrough (i := .ldch o) (r := .A) nofun o.field.len_le hp rfl
  refine ⟨t, hexec, hval ▸ charOperand_toNat o s, ?_, hframe⟩
  show _ = s.pc.toNat + (resolve o s).len
  rw [resolve_len, hpc]

/-! ### The stores (R145 to R149) -/

/-- An instruction that replaces memory and falls through: the state `t` reads memory as the handler left it. -/
theorem exec_setMem_fallThrough {i : Instr} {s : State} {m : Memory} {len : Nat} (hlen : len ≤ 4)
    (hp : s.pc.toNat < 65536) (hi : handler i s = { s with mem := m }.fallThrough s.pc len) :
    ∃ t, exec i s = .next t ∧ t.mem = m ∧ t.pc.toNat = s.pc.toNat + len ∧
      KeepsRegsBut [.PC] s t ∧ KeepsDevices s t ∧ KeepsLoaded s t ∧ Executed i.mnemonic s t := by
  have hok := exec_of_ok (hi.trans (fallThrough_ok _ hp hlen))
  refine ⟨_, hok, rfl, ?pc, ?regs, ⟨rfl, rfl, rfl⟩, ⟨rfl, rfl, rfl, rfl⟩, retire_executed s _ _ _ _ _ _ rfl rfl⟩
  case pc => rw [State.retire_pc, State.setReg_PC_pc, ofNat_toNat_small (by omega)]
  case regs => exact keepsRegsBut_setReg _ (List.mem_singleton_self _) (keepsRegsBut_of_regs_eq rfl)

/-- STA, STL and STX are one store, each of its own register. -/
theorem handler_storeWord {s : State} {o : Operand} {i : Instr} {r : Reg}
    (hir : (i, r) ∈ [(Instr.sta o, Reg.A), (Instr.stl o, Reg.L), (Instr.stx o, Reg.X)]) :
    handler i s = (s.writeWord (resolve o s).ea (s.reg r)).fallThrough s.pc o.field.len := by
  simp only [List.mem_cons, List.not_mem_nil, or_false, Prod.mk.injEq] at hir
  obtain ⟨rfl, rfl⟩ | ⟨rfl, rfl⟩ | ⟨rfl, rfl⟩ := hir
  · rfl
  · rfl
  · rfl

theorem State.readByte_congr_mem {s t : State} (h : t.mem = s.mem) (a : Int) : t.readByte a = s.readByte a := by
  rw [State.readByte, State.readByte, h]

/-- Settles O18: the three cells and the frame are those of `State.writeWord_bytes`. -/
theorem storeWordResult : Obligations.StoreWordResult := by
  intro s o i r hir hm hp d
  obtain ⟨t, hexec, hmem, hpc, hframe⟩ := exec_setMem_fallThrough o.field.len_le hp (handler_storeWord hir)
  obtain ⟨hhigh, hmid, hlow, hout⟩ := State.writeWord_bytes hm d.ea (s.reg r)
  have hread := State.readByte_congr_mem (s := s.writeWord d.ea (s.reg r)) hmem
  refine ⟨t, hexec, (hread _).trans hhigh, (hread _).trans hmid, (hread _).trans hlow,
    fun a ha => (hread a).trans (hout a ha), ?_, hframe⟩
  rw [hpc]
  exact congrArg _ (resolve_len o s).symm

/-- Settles O19: the one cell takes the low byte of A (`lo8_word`), and no other cell is written. -/
theorem storeCharacterResult : Obligations.StoreCharacterResult := by
  intro s o hm hp d
  obtain ⟨t, hexec, hmem, hpc, hframe⟩ :=
    exec_setMem_fallThrough (i := .stch o) (m := s.mem.writeByte d.ea (s.reg .A).toNat) o.field.len_le hp rfl
  have hread := State.readByte_congr_mem (s := s.writeByte d.ea (s.reg .A).toNat) hmem
  refine ⟨t, hexec, ?_, fun a ha => ?_, ?_, hframe⟩
  · rw [hread, State.readByte_writeByte_same hm, lo8_word]
  · rw [hread, State.readByte_writeByte_other hm]
    simpa using ha 0 (by omega)
  · rw [hpc]
    exact congrArg _ (resolve_len o s).symm

/-! ### COMP, COMPR and CLEAR (R161 to R163) -/

/-- Settles O20: SW takes the comparison with the value of the operand (`wordOperand_toNat`). -/
theorem compareResult : Obligations.CompareResult := by
  intro s o hp d
  obtain ⟨t, hexec, hval, hpc, hframe⟩ :=
    exec_setReg_fallThrough (i := .comp o) (r := .SW) nofun o.field.len_le hp rfl
  refine ⟨wordOperand d s, t, wordOperand_toNat o s, hexec, hval, ?_, hframe⟩
  rw [hpc]
  exact congrArg _ (resolve_len o s).symm

theorem handler_compr {s : State} {r1 r2 : BitVec 4} {ra rb : Reg} (ha : regOfIndex r1 = some ra)
    (hb : regOfIndex r2 = some rb) (lo : BitVec 2) :
    handler (.compr lo r1 r2) s = (s.setReg .SW (cmpWords (s.reg ra) (s.reg rb))).fallThrough s.pc 2 := by
  rw [handler, regAt_of_some ha, regAt_of_some hb]
  rfl

/-- Settles O21. -/
theorem compareRegistersResult : Obligations.CompareRegistersResult :=
  fun _ lo _ _ _ _ ha hb hp => exec_setReg_fallThrough nofun (by omega) hp (handler_compr ha hb lo)

theorem handler_clear {s : State} {r1 : BitVec 4} {r : Reg} (hr : regOfIndex r1 = some r) (lo : BitVec 2)
    (r2 : BitVec 4) : handler (.clear lo r1 r2) s = (s.setReg r 0#24).fallThrough s.pc 2 := by
  rw [handler, regAt_of_some hr]
  rfl

/-- Settles O22: of a register other than PC the 0 stays, and over a cleared PC the closing write goes. -/
theorem clearResult : Obligations.ClearResult := by
  intro s lo r1 r2 r hr hp
  by_cases hpc : r = .PC
  · subst hpc
    have hok : handler (.clear lo r1 r2) s = .ok (s.setReg .PC (BitVec.ofNat 24 (s.pc.toNat + 2))) :=
      (handler_clear hr lo r2).trans (fallThrough_ok _ hp (by omega))
    obtain ⟨t, hexec, hval, hregs, hframe⟩ := exec_setReg_PC (n := s.draws) hok
    refine ⟨t, hexec, fun h => absurd rfl h, ?_, fun q hq => hregs q (by simpa using hq), hframe⟩
    rw [hval, ofNat_toNat_small (by omega)]
  · obtain ⟨t, hexec, hval, hframe⟩ := exec_setReg_fallThrough hpc (by omega) hp (handler_clear (s := s) hr lo r2)
    exact ⟨t, hexec, fun _ => hval, hframe⟩

/-! ### TIXR (R164) -/

/-- TIXR once its write of X went through: the new X is compared with r1 as it is after that. -/
theorem exec_tixr {s : State} {r1 : BitVec 4} {r : Reg} {x : Word} (hr : regOfIndex r1 = some r)
    (hx : s.writeReg s.pc .X ((s.reg .X).toNat + 1) = .ok (s.setReg .X x)) (hp : s.pc.toNat < 65536) (lo : BitVec 2)
    (r2 : BitVec 4) :
    ∃ t, exec (.tixr lo r1 r2) s = .next t ∧ t.reg .X = x ∧ t.reg .SW = cmpWords x (if r = .X then x else s.reg r) ∧
      t.pc.toNat = s.pc.toNat + 2 ∧
      KeepsRegsBut [.X, .SW, .PC] s t ∧ KeepsMemory s t ∧ KeepsDevices s t ∧ KeepsLoaded s t ∧ Executed .TIXR s t := by
  have hok : handler (.tixr lo r1 r2) s =
      .ok (((s.setReg .X x).setReg .SW (cmpWords x (if r = .X then x else s.reg r))).setReg .PC
        (BitVec.ofNat 24 (s.pc.toNat + 2))) := by
    rw [handler, regAt_of_some hr, ← State.reg_setReg]
    simp only [hx, bind, Except.bind, State.reg_setReg_same]
    exact fallThrough_ok _ hp (by omega)
  refine ⟨_, exec_of_ok hok, rfl, rfl, ?pc, ?regs, fun _ => rfl, ⟨rfl, rfl, rfl⟩, ⟨rfl, rfl, rfl, rfl⟩,
    retire_executed s _ _ _ _ _ _ rfl rfl⟩
  case pc => rw [State.retire_pc, State.setReg_PC_pc, ofNat_toNat_small (by omega)]
  case regs =>
    exact keepsRegsBut_setReg _ (by simp) (keepsRegsBut_setReg _ (by simp)
      (keepsRegsBut_setReg _ (by simp) (keepsRegsBut_refl _ s)))

/-- Settles O23: below the top X + 1 has 24 bits. -/
theorem incrementAndTestResult : Obligations.IncrementAndTestResult := by
  intro s lo r1 r2 r hr hx hp
  obtain ⟨t, hexec, hval, hsw, hframe⟩ := exec_tixr hr (writeReg_inRange s s.pc .X (by omega) (by omega)) hp lo r2
  refine ⟨t, hexec, ?_, hval ▸ hsw, hframe⟩
  rw [hval, ← Int.natCast_inj, trunc24_toNat (by omega) (by omega)]
  rfl

/-- Settles O24: at the top X + 1 is 2^24, and `REG_OVERFLOW` decides. -/
theorem incrementAtTheTop : Obligations.IncrementAtTheTop := by
  intro s lo r1 r2 r hr hx hp
  have hv : ((s.reg .X).toNat : Int) + 1 = 16777216 := by rw [hx]; rfl
  have hout : ¬((0 : Int) ≤ 16777216 ∧ (16777216 : Int) < 16777216) := by omega
  cases hc : Config.regOverflow with
  | wrap => exact exec_tixr hr (by rw [hv]; exact writeReg_outside_wrap hc hout s s.pc .X) hp lo r2
  | fault =>
    refine exec_of_error (k := .registerOverflow s.pc .X 16777216) ?_
    rw [handler, regAt_of_some hr, hv, writeReg_outside_fault hc hout]
    rfl

/-! ### Indexes that name no register (R166, R243) -/

/-- Settles O25: the index is looked up before anything is written (`regAt_of_none`). -/
theorem unknownRegisterRaised : Obligations.UnknownRegisterRaised := by
  intro s lo r1 r2
  refine ⟨fun h1 i hi => exec_of_error (k := .unknownRegister s.pc r1) ?_,
    fun h1 h2 => exec_of_error (k := .unknownRegister s.pc r2) ?_⟩
  · simp only [List.mem_cons, List.not_mem_nil, or_false] at hi
    obtain rfl | rfl | rfl := hi
    all_goals rw [handler, regAt_of_none h1]; rfl
  · obtain ⟨ra, hra⟩ := Option.isSome_iff_exists.mp h1
    rw [handler, regAt_of_some hra, regAt_of_none h2]
    rfl

end Sys2Proof.Machine
end

section
/-! PROOFS. Jumps and the call (spec 43): which jumps are taken, what a taken jump, one not taken and a call leave
behind, and the statements O26 to O28 and O30. -/

namespace Sys2Proof.Machine

/-! ### The handlers of the jumps (R170 to R172) -/

theorem handler_jump_taken {s : State} {o : Operand} {i : Instr}
    (hi : i = .j o ∨ (i = .jeq o ∧ s.reg .SW = 0x000000#24) ∨ (i = .jlt o ∧ s.reg .SW = 0xFFFFFF#24)) :
    handler i s = s.writeReg s.pc .PC (resolve o s).ea := by
  obtain rfl | ⟨rfl, hsw⟩ | ⟨rfl, hsw⟩ := hi
  · rfl
  · exact if_pos (beq_iff_eq.mpr hsw)
  · exact if_pos (beq_iff_eq.mpr hsw)

theorem handler_jump_notTaken {s : State} {o : Operand} {i : Instr}
    (hi : (i = .jeq o ∧ s.reg .SW ≠ 0x000000#24) ∨ (i = .jlt o ∧ s.reg .SW ≠ 0xFFFFFF#24)) :
    handler i s = s.fallThrough s.pc o.field.len := by
  obtain ⟨rfl, hsw⟩ | ⟨rfl, hsw⟩ := hi
  · exact if_neg (mt beq_iff_eq.mp hsw)
  · exact if_neg (mt beq_iff_eq.mp hsw)

/-- Settles O26: a target of 24 bits goes to PC as it is (`writeReg_inRange`). -/
theorem jumpTaken : Obligations.JumpTaken := by
  intro s o i hi h0 h1
  obtain ⟨t, hexec, hpc, hframe⟩ :=
    exec_setReg_PC (n := s.draws) ((handler_jump_taken hi).trans (writeReg_inRange s s.pc .PC h0 h1))
  exact ⟨t, hexec, hpc ▸ trunc24_toNat h0 h1, hframe⟩

/-- Settles O27: from inside the memory P + len fits (`fallThrough_ok`). -/
theorem jumpNotTaken : Obligations.JumpNotTaken := by
  intro s o i hi hp
  have hlen := o.field.len_le
  obtain ⟨t, hexec, hpc, hframe⟩ :=
    exec_setReg_PC (n := s.draws) ((handler_jump_notTaken hi).trans (fallThrough_ok s hp hlen))
  exact ⟨t, hexec, hpc ▸ ofNat_toNat_small (by omega), hframe⟩

/-! ### The call (R173) -/

/-- The return address always fits, so only the target can raise. -/
theorem handler_jsub (o : Operand) {s : State} (hp : s.pc.toNat < 65536) :
    handler (.jsub o) s =
      (s.setReg .L (BitVec.ofNat 24 (s.pc.toNat + o.field.len))).writeReg s.pc .PC (resolve o s).ea := by
  have hlen := o.field.len_le
  have hret : s.writeReg s.pc .L (s.pc.toNat + o.field.len) =
      .ok (s.setReg .L (BitVec.ofNat 24 (s.pc.toNat + o.field.len))) := by
    rw [writeReg_inRange s s.pc .L (by omega) (by omega), ← trunc24_natCast]
    push_cast
    rfl
  rw [handler, hret]
  rfl

/-- A call whose target went into PC as the word `w`. -/
theorem exec_jsub {s : State} {o : Operand} {w : Word} (hp : s.pc.toNat < 65536)
    (hok : handler (.jsub o) s = .ok ((s.setReg .L (BitVec.ofNat 24 (s.pc.toNat + o.field.len))).setReg .PC w)) :
    ∃ t, exec (.jsub o) s = .next t ∧ (t.reg .L).toNat = s.pc.toNat + o.field.len ∧ t.pc = w ∧
      KeepsRegsBut [.L, .PC] s t ∧ KeepsMemory s t ∧ KeepsDevices s t ∧ KeepsLoaded s t ∧ Executed .JSUB s t := by
  have hlen := o.field.len_le
  refine ⟨_, exec_of_ok hok, ofNat_toNat_small (by omega), rfl, ?regs, fun _ => rfl, ⟨rfl, rfl, rfl⟩,
    ⟨rfl, rfl, rfl, rfl⟩, retire_executed s _ _ _ _ _ _ rfl rfl⟩
  case regs =>
    exact keepsRegsBut_setReg _ (by simp) (keepsRegsBut_setReg _ (by simp) (keepsRegsBut_refl _ s))

/-- Settles O28. -/
theorem subroutineCallResult : Obligations.SubroutineCallResult := by
  intro s o hp h0 h1
  obtain ⟨t, hexec, hl, hpc, hframe⟩ := exec_jsub hp ((handler_jsub o hp).trans (writeReg_inRange _ s.pc .PC h0 h1))
  exact ⟨t, hexec, hl, hpc ▸ trunc24_toNat h0 h1, hframe⟩

/-! ### Targets outside 24 bits (R22, R124) -/

theorem keepsRegsBut_mono {rs qs : List Reg} {s t : State} (h : KeepsRegsBut rs s t) (hsub : ∀ r ∈ rs, r ∈ qs) :
    KeepsRegsBut qs s t :=
  fun r hr => h r (fun hmem => hr (hsub r hmem))

/-- Settles O30: a taken jump and a call differ in L only, and the write of PC wraps or raises for both. -/
theorem jumpOutsideTwentyFourBits : Obligations.JumpOutsideTwentyFourBits := by
  intro s o i hi hp hv
  by_cases hjsub : i = .jsub o
  · subst hjsub
    cases hc : Config.regOverflow with
    | wrap =>
      obtain ⟨t, hexec, hl, hpc, hframe⟩ :=
        exec_jsub hp ((handler_jsub o hp).trans (writeReg_outside_wrap hc hv _ s.pc .PC))
      exact ⟨t, hexec, hpc ▸ trunc24_toNat_emod _, by rw [if_pos rfl, hl], hframe⟩
    | fault => exact exec_of_error ((handler_jsub o hp).trans (writeReg_outside_fault hc hv _ s.pc .PC))
  · have htaken := handler_jump_taken (s := s) (o := o) (i := i) (by tauto)
    cases hc : Config.regOverflow with
    | wrap =>
      obtain ⟨t, hexec, hpc, hregs, hframe⟩ :=
        exec_setReg_PC (n := s.draws) (htaken.trans (writeReg_outside_wrap hc hv s s.pc .PC))
      refine ⟨t, hexec, hpc ▸ trunc24_toNat_emod _, ?_, keepsRegsBut_mono hregs (by simp), hframe⟩
      rw [if_neg hjsub, hregs .L (by simp)]
    | fault => exact exec_of_error (htaken.trans (writeReg_outside_fault hc hv s s.pc .PC))

end Sys2Proof.Machine
end

section
/-! PROOFS. Devices (spec 44): what TD, RD and WD leave behind on an open device and on one that is not open, who
opens a device and who sends to it, what the other instructions see of them, and the statements O31 to O35 and O49
to O51. -/

namespace Sys2Proof.Machine

/-! ### An instruction that changes registers and the environment and falls through -/

theorem exec_environment_fallThrough {i : Instr} {s : State} {g : Regs} {ds : List (Nat × Handle)} {vs : List Bool}
    {ins : List (Option Byte)} {n len : Nat} (hlen : len ≤ 4) (hp : s.pc.toNat < 65536)
    (hi : handler i s =
      { s with regs := g, devices := ds, verdicts := vs, inputs := ins, draws := n }.fallThrough s.pc len) :
    ∃ t, exec i s = .next t ∧ (t.devices = ds ∧ t.verdicts = vs ∧ t.inputs = ins ∧ t.draws = n) ∧
      (∀ q : Reg, q ≠ .PC → t.reg q = g.get q) ∧ t.pc.toNat = s.pc.toNat + len ∧
      KeepsMemory s t ∧ KeepsLoaded s t ∧ Executed i.mnemonic s t := by
  have hok := exec_of_ok (hi.trans (fallThrough_ok _ hp hlen))
  refine ⟨_, hok, ⟨rfl, rfl, rfl, rfl⟩, fun q hq => ?regs, ?pc, fun _ => rfl, ⟨rfl, rfl, rfl, rfl⟩,
    retire_executed s _ _ _ _ _ _ rfl rfl⟩
  case pc => rw [State.retire_pc, State.setReg_PC_pc, ofNat_toNat_small (by omega)]
  case regs =>
    rw [State.retire_reg, State.reg_setReg_other _ _ hq]
    rfl

/-- The frame of such an instruction that wrote at most one register `r`. -/
theorem keepsRegsBut_of_set {s t : State} {r : Reg} {w : Word}
    (h : ∀ q : Reg, q ≠ .PC → t.reg q = (s.regs.set r w).get q) : KeepsRegsBut [r, .PC] s t := by
  intro q hq
  obtain ⟨hqr, hqpc⟩ : q ≠ r ∧ q ≠ .PC := by simpa using hq
  rw [h q hqpc, Regs.get_set_other _ _ hqr]
  rfl

/-! ### TD (R183) -/

theorem handler_td {s : State} {o : Operand} {id : Byte} (hid : s.readByte (resolve o s).ea = id) :
    handler (.td o) s =
      ((s.devTest id).2.setReg .SW (if (s.devTest id).1 then swGreater else swEqual)).fallThrough s.pc o.field.len := by
  subst hid
  rfl

/-- Settles O31: a device that is open answers ok at once and nothing is drawn (`devTest_open`). -/
theorem testOpenDevice : Obligations.TestOpenDevice := by
  intro s o hp hopen
  have hi : handler (.td o) s = (s.setReg .SW swGreater).fallThrough s.pc o.field.len := by
    rw [handler_td rfl, devTest_open hopen]
    rfl
  exact exec_setReg_fallThrough nofun o.field.len_le hp hi

/-- DevTest of a device that is not open uses the verdict up, and opens the device when it is ok. -/
theorem devTest_closed_frame {s : State} {id : Byte} (hd : devicesWf s.devices) (h : s.isOpen id = false) :
    ∃ ds c n, s.devTest id = ((s.drawVerdict).1, { s with devices := ds, verdicts := s.verdicts.tail, draws := n }) ∧
      (s.verdicts = [] → s.draws < n) ∧
      ∀ j : Byte, sparseGet Handle.untouched ds j.toNat =
        if (s.drawVerdict).1 = true ∧ j = id then ⟨true, c, (s.device id).output⟩ else s.device j := by
  obtain ⟨n, hf, -, hn⟩ := drawVerdict_frame s
  rw [devTest_closed h, hf]
  cases (s.drawVerdict).1 with
  | true =>
    refine ⟨_, Config.cursorAtOpen n, n + 1, rfl, fun hv => Nat.lt_succ_of_lt (hn hv), fun j => ?_⟩
    simp only [true_and]
    exact device_setDevice hd id j ⟨true, Config.cursorAtOpen n, (s.device id).output⟩
  | false => exact ⟨s.devices, 0, n, rfl, hn, fun j => by simp [State.device]⟩

/-- Settles O32: only the tested device's handle can change, and it does when the verdict is ok
(`devTest_closed_frame`). -/
theorem testClosedDevice : Obligations.TestClosedDevice := by
  intro s o hp hd hclosed
  generalize hid : s.readByte (resolve o s).ea = id at hclosed ⊢
  obtain ⟨ds, c, n, htest, hn, hget⟩ := devTest_closed_frame hd hclosed
  have hi := handler_td hid
  rw [htest] at hi
  obtain ⟨t, hexec, ⟨hds, hvs, hins, hdraws⟩, hregs, hpc, hframe⟩ :=
    exec_environment_fallThrough (s := s) o.field.len_le hp hi
  have hdev : ∀ j : Byte, t.device j =
      if (s.drawVerdict).1 = true ∧ j = id then ⟨true, c, (s.device id).output⟩ else s.device j :=
    fun j => (State.device_congr (s := { s with devices := ds }) hds j).trans (hget j)
  have hother : KeepsOtherDevices id s t := fun j hj => by simp [hdev, hj]
  refine ⟨t, hexec, ?isOpen, ?sw, ?output, ?same, hother, hins, hvs, fun hv => hdraws ▸ hn hv, hpc,
    keepsRegsBut_of_set hregs, hframe⟩
  case isOpen =>
    rw [State.isOpen, hdev]
    rw [State.isOpen] at hclosed
    cases (s.drawVerdict).1 <;> simp [hclosed]
  case sw => exact (hregs .SW nofun).trans (Regs.get_set_same ..)
  case output =>
    rw [State.deviceOutput, State.deviceOutput, hdev]
    cases (s.drawVerdict).1 <;> simp
  case same => intro hv; simp [hdev, hv]

/-! ### RD (R184) -/

theorem inputWord_toNat (r : Option Byte) :
    (inputWord r).toNat =
      match r with
      | none => 0
      | some v => if v.toNat < 128 then v.toNat else 0xFFFF00 + v.toNat := by
  cases r with
  | none => rfl
  | some v =>
    have hv := v.isLt
    simp only [inputWord, sext8]
    split
    · exact ofNat_toNat_small (by omega)
    · exact ofNat_toNat_small (by omega)

theorem handler_rd_open {s : State} {o : Operand} {id : Byte} (hid : s.readByte (resolve o s).ea = id)
    (hopen : s.isOpen id = true) :
    handler (.rd o) s =
      ((s.devRead id).2.setReg .A (inputWord (s.drawInput).1)).fallThrough s.pc o.field.len := by
  subst hid
  refine (if_pos hopen).trans ?_
  rw [deviceNumber, devRead_eq]

/-- Settles O33: the handle put is the old one with its cursor advanced (`devRead_frame`). -/
theorem readDeviceResult : Obligations.ReadDeviceResult := by
  intro s o hp hd hopen
  generalize hid : s.readByte (resolve o s).ea = id at hopen ⊢
  obtain ⟨n, hread, -, hn⟩ := devRead_frame s id
  have hi := handler_rd_open hid hopen
  rw [hread] at hi
  obtain ⟨t, hexec, ⟨hds, hvs, hins, hdraws⟩, hregs, hpc, hframe⟩ :=
    exec_environment_fallThrough (s := s) o.field.len_le hp hi
  have hdev : ∀ j : Byte, t.device j =
      if j = id then { s.device id with cursor := (s.device id).cursor + 1 } else s.device j :=
    fun j => (State.device_congr (s := s.setDevice id _) hds j).trans (device_setDevice hd id j _)
  have hother : KeepsOtherDevices id s t := fun j hj => by simp [hdev, hj]
  refine ⟨t, hexec, ?a, ?cursor, ?isOpen, ?output, hother, hvs, hins, fun hv => hdraws ▸ hn hv, hpc,
    keepsRegsBut_of_set hregs, hframe⟩
  case a =>
    rw [(hregs .A nofun).trans (Regs.get_set_same ..)]
    exact inputWord_toNat _
  case cursor => simp [hdev]
  case isOpen => simpa [State.isOpen, hdev] using hopen
  case output => simp [State.deviceOutput, hdev]

/-! ### WD (R185) -/

theorem handler_wd_open {s : State} {o : Operand} {id : Byte} (hid : s.readByte (resolve o s).ea = id)
    (hopen : s.isOpen id = true) :
    handler (.wd o) s = (s.devWrite id ((s.reg .A).extractLsb' 0 8)).fallThrough s.pc o.field.len := by
  subst hid
  refine (if_pos hopen).trans ?_
  rw [lo8_word]
  rfl

/-- Settles O34: the handle put is the old one with the low byte of A (`lo8_word`) at the end of its output. -/
theorem writeDeviceResult : Obligations.WriteDeviceResult := by
  intro s o hp hd hopen
  generalize hid : s.readByte (resolve o s).ea = id at hopen ⊢
  obtain ⟨t, hexec, ⟨hds, hvs, hins, -⟩, hregs, hpc, hframe⟩ :=
    exec_environment_fallThrough (s := s) o.field.len_le hp (handler_wd_open hid hopen)
  have hdev : ∀ j : Byte, t.device j =
      if j = id then { s.device id with output := (s.device id).output ++ [(s.reg .A).extractLsb' 0 8] }
      else s.device j :=
    fun j => (State.device_congr (s := s.setDevice id _) hds j).trans (device_setDevice hd id j _)
  have hother : KeepsOtherDevices id s t := fun j hj => by simp [hdev, hj]
  refine ⟨t, hexec, ?output, ?isOpen, ?cursor, hother, hvs, hins, hpc, fun q hq => hregs q (by simpa using hq), hframe⟩
  case output => simp [State.deviceOutput, hdev]
  case isOpen => simpa [State.isOpen, hdev] using hopen
  case cursor => simp [hdev]

/-! ### DeviceNotOpen (R244) -/

theorem fallThrough_error {s : State} {p : Word} {len : Nat} {k : Fault} (h : s.fallThrough p len = .error k) :
    ∃ v, k = .registerOverflow p .PC v := by
  obtain h' | ⟨h', -⟩ := writeReg_cases s p .PC (p.toNat + len)
  · cases h'.symm.trans h
  · exact ⟨_, (Except.error.inj (h'.symm.trans h)).symm⟩

/-- Settles O35: RD and WD check before they do anything; of a TD only the closing PC write can raise. -/
theorem deviceNotOpenRaised : Obligations.DeviceNotOpenRaised := by
  refine ⟨fun s o hclosed i hi => ?_, fun s t o p id hexec => ?_⟩
  · have hne : ¬s.isOpen (s.readByte (resolve o s).ea) = true := by simp [hclosed]
    simp only [List.mem_cons, List.not_mem_nil, or_false] at hi
    obtain rfl | rfl := hi
    · exact exec_of_error (if_neg hne)
    · exact exec_of_error (if_neg hne)
  · obtain ⟨u, -, rfl⟩ | ⟨k, hk, rfl⟩ := exec_cases hexec
    · exact nofun
    · obtain ⟨v, rfl⟩ := fallThrough_error hk
      exact nofun

/-! ### Who opens a device and who sends to it (R68, R186) -/

/-- Settles O49: a raise changes no device, and of what a handler leaves (`HandleAfter`) only an opening differs in
openness. -/
theorem onlyTestOpensDevices : Obligations.OnlyTestOpensDevices := by
  intro s t id hrun hd hstep
  obtain ⟨hstop, -⟩ | ⟨-, i, hfetch, hexec⟩ | ⟨-, ⟨byte1⟩, -, rfl⟩ := step_cases hstep
  · exact absurd hrun (by simp [hstop])
  · obtain ⟨u, hu, rfl⟩ | ⟨k, -, rfl⟩ := exec_cases hexec
    · have hx := handler_device hu hd id
      rw [State.retire_isOpen, State.isOpen, State.isOpen]
      generalize u.device id = x at hx
      cases hx with
      | same => exact ⟨fun h => h, fun h h' => absurd h' (by simp [h])⟩
      | opened c hi hid => exact ⟨fun _ => rfl, fun _ _ => ⟨_, hi ▸ hfetch, hid⟩⟩
      | moved => exact ⟨fun h => h, fun h h' => absurd h' (by simp [h])⟩
      | sent => exact ⟨fun h => h, fun h h' => absurd h' (by simp [h])⟩
    · exact ⟨fun h => h, fun h h' => absurd h' (by simp [h])⟩
  · exact ⟨fun h => h, fun h h' => absurd h' (by simp [State.raiseDecode, h])⟩

/-- Settles O50: closing keeps what was sent, a raise changes no device, and of what a handler leaves
(`HandleAfter`) only a WD differs in output. -/
theorem outputGrowsByWriteOnly : Obligations.OutputGrowsByWriteOnly := by
  intro s t id hd hstep
  obtain ⟨-, rfl⟩ | ⟨-, i, hfetch, hexec⟩ | ⟨-, ⟨byte1⟩, -, rfl⟩ := step_cases hstep
  · exact .inl ((congrArg Handle.output (devClose_device hd id) :))
  · obtain ⟨u, hu, rfl⟩ | ⟨k, -, rfl⟩ := exec_cases hexec
    · have hx := handler_device hu hd id
      rw [State.deviceOutput, State.deviceOutput, State.retire_device]
      generalize u.device id = x at hx
      cases hx with
      | same => exact .inl rfl
      | opened => exact .inl rfl
      | moved => exact .inl rfl
      | sent hi hid => exact .inr ⟨_, hi ▸ hfetch, hid, rfl⟩
    · exact .inl rfl
  · exact .inl rfl

/-! ### The other instructions (R60, R180) -/

/-- The machine with another device table and other pending answers. -/
def State.withEnvironment (s : State) (ds : List (Nat × Handle)) (vs : List Bool) (ins : List (Option Byte)) : State :=
  { s with devices := ds, verdicts := vs, inputs := ins }

section Environment
variable (ds : List (Nat × Handle)) (vs : List Bool) (ins : List (Option Byte))

theorem writeReg_withEnvironment (s : State) (p : Word) (r : Reg) (v : Int) :
    (s.withEnvironment ds vs ins).writeReg p r v = (s.writeReg p r v).map (·.withEnvironment ds vs ins) := by
  unfold State.writeReg
  cases regFit v with
  | none => rfl
  | some w => rfl

theorem fallThrough_withEnvironment (s : State) (p : Word) (len : Nat) :
    (s.withEnvironment ds vs ins).fallThrough p len = (s.fallThrough p len).map (·.withEnvironment ds vs ins) :=
  writeReg_withEnvironment ds vs ins s p .PC _

/-- A handler that is no device instruction's does the same under any environment. -/
theorem handler_withEnvironment {i : Instr} (hi : usesDevice i = false) (s : State) :
    handler i (s.withEnvironment ds vs ins) = (handler i s).map (·.withEnvironment ds vs ins) := by
  have hread : ∀ a, (s.withEnvironment ds vs ins).reg a = s.reg a := fun _ => rfl
  have hpc : (s.withEnvironment ds vs ins).pc = s.pc := rfl
  cases i
  case rd | wd | td => cases hi
  case j o => exact writeReg_withEnvironment ds vs ins s _ _ _
  case jeq o =>
    simp only [handler, hread, hpc]
    split
    · exact writeReg_withEnvironment ds vs ins s _ _ _
    · exact fallThrough_withEnvironment ds vs ins s _ _
  case jlt o =>
    simp only [handler, hread, hpc]
    split
    · exact writeReg_withEnvironment ds vs ins s _ _ _
    · exact fallThrough_withEnvironment ds vs ins s _ _
  case jsub o =>
    simp only [handler, hpc, writeReg_withEnvironment]
    cases s.writeReg s.pc .L (s.pc.toNat + o.field.len) with
    | error k => rfl
    | ok t => exact writeReg_withEnvironment ds vs ins t _ _ _
  case rsub o => rfl
  case compr lo r1 r2 =>
    simp only [handler, hpc]
    cases regAt s.pc r1 with
    | error k => rfl
    | ok ra =>
      cases regAt s.pc r2 with
      | error k => rfl
      | ok rb => exact fallThrough_withEnvironment ds vs ins (s.setReg .SW _) _ _
  case clear lo r1 r2 =>
    simp only [handler, hpc]
    cases regAt s.pc r1 with
    | error k => rfl
    | ok r => exact fallThrough_withEnvironment ds vs ins (s.setReg r _) _ _
  case tixr lo r1 r2 =>
    simp only [handler, hpc, hread, writeReg_withEnvironment]
    cases regAt s.pc r1 with
    | error k => rfl
    | ok r =>
      cases s.writeReg s.pc .X ((s.reg .X).toNat + 1) with
      | error k => rfl
      | ok t => exact fallThrough_withEnvironment ds vs ins (t.setReg .SW _) _ _
  case sta o => exact fallThrough_withEnvironment ds vs ins (s.writeWord _ _) _ _
  case stl o => exact fallThrough_withEnvironment ds vs ins (s.writeWord _ _) _ _
  case stx o => exact fallThrough_withEnvironment ds vs ins (s.writeWord _ _) _ _
  case stch o => exact fallThrough_withEnvironment ds vs ins (s.writeByte _ _) _ _
  all_goals exact fallThrough_withEnvironment ds vs ins (s.setReg _ _) _ _

theorem reportedBy_withEnvironment (i : Instr) (s : State) :
    reportedBy i (s.withEnvironment ds vs ins) = reportedBy i s := by
  cases i <;> rfl

theorem touchedBy_of_no_device {i : Instr} (hi : usesDevice i = false) (s : State) : touchedBy i s = none := by
  rw [touchedBy, hi]
  rfl

end Environment

/-- Settles O51: neither outcome of the handler reads the environment (`handler_withEnvironment`), and what `exec`
records besides does not either. -/
theorem otherInstructionsIgnoreDevices : Obligations.OtherInstructionsIgnoreDevices := by
  intro i s t ds vs ins hi hexec
  have hh := handler_withEnvironment ds vs ins hi s
  obtain ⟨u, hu, rfl⟩ | ⟨k, hk, rfl⟩ := exec_cases hexec
  · rw [hu] at hh
    refine (exec_of_ok hh).trans ?_
    rw [reportedBy_withEnvironment, touchedBy_of_no_device hi, touchedBy_of_no_device hi]
    rfl
  · rw [hk] at hh
    exact exec_of_error hh

end Sys2Proof.Machine
end

section
/-! PROOFS. The step (spec 40, 60): a decoded instruction runs, an undecodable byte raises, a stopped machine closes
its devices and stays stopped, what a failing and an executed step report, and the statements O36 to O43. -/

namespace Sys2Proof.Machine

/-! ### The three branches of the step (R110, R128, R242) -/

theorem step_of_fetchDecode_ok {s : State} {i : Instr} (hrun : s.runnable = true) (hfetch : s.fetchDecode = .ok i) :
    step s = exec i s := by
  rw [step, if_pos hrun, hfetch]

theorem step_of_fetchDecode_error {s : State} {e : DecodeError} (hrun : s.runnable = true)
    (hfetch : s.fetchDecode = .error e) : step s = .next (s.raiseDecode e) := by
  rw [step, if_pos hrun, hfetch]

theorem step_of_stopped {s : State} (hstop : s.runnable = false) : step s = .next s.idle := by
  rw [step, if_neg (by simp [hstop])]

/-- Settles O36. -/
theorem stepRunsTheDecodedInstruction : Obligations.StepRunsTheDecodedInstruction :=
  fun _ _ hrun hdec => step_of_fetchDecode_ok hrun hdec

/-- Settles O37: the decoder fails exactly where the table has no entry (`decode_eq_error_iff`). -/
theorem unknownOpcodeRaised : Obligations.UnknownOpcodeRaised :=
  fun _ hrun hkey => step_of_fetchDecode_error hrun (decode_eq_error_iff.mpr ⟨hkey, rfl⟩)

theorem exec_answers (i : Instr) (s : State) : ∃ t, exec i s = .next t := by
  rw [exec_eq_finish]
  exact ⟨_, rfl⟩

/-- Settles O43: each of the three branches answers a next state. -/
theorem stepAlwaysAnswers : Obligations.StepAlwaysAnswers := by
  intro s
  cases hrun : s.runnable with
  | false => exact ⟨_, step_of_stopped hrun⟩
  | true =>
    cases hfetch : s.fetchDecode with
    | ok i => exact step_of_fetchDecode_ok hrun hfetch ▸ exec_answers i s
    | error e => exact ⟨_, step_of_fetchDecode_error hrun hfetch⟩

/-! ### A stopped machine (R128) -/

/-- Settles O38. -/
theorem stoppedStepClosesDevices : Obligations.StoppedStepClosesDevices := by
  intro s hstop hd
  refine ⟨_, step_of_stopped hstop, rfl, rfl, rfl, hstop, ⟨rfl, rfl, rfl, rfl⟩, fun id => ?_⟩
  show (s.devClose.device id).isOpen = false
  rw [devClose_device hd]
  rfl

/-- Settles O39, by induction on the number of steps: an idle machine is stopped again. -/
theorem stoppedStaysStopped : Obligations.StoppedStaysStopped := by
  intro k
  induction k with
  | zero => exact fun s hstop => ⟨s, rfl, hstop, rfl, rfl, rfl⟩
  | succ k ih =>
    intro s hstop
    have hrun : Host.Core.run core (k + 1) s = Host.Core.run core k s.idle := by
      have hstep : core.step s = .next s.idle := step_of_stopped hstop
      simp only [Host.Core.run, hstep]
    obtain ⟨t, ht, hframe⟩ := ih s.idle hstop
    exact ⟨t, hrun.trans ht, hframe⟩

/-! ### A failing step, and an executed one (R127, R130, R131, R133) -/

/-- Everything a step of a runnable machine can do: run the handler of the instruction at PC and retire it, or
raise. -/
theorem step_running_cases {s t : State} (hrun : s.runnable = true) (hstep : step s = .next t) :
    (∃ i u, s.fetchDecode = .ok i ∧ handler i s = .ok u ∧
      t = u.retire i.mnemonic s.pc i.length (reportedBy i s) (touchedBy i s)) ∨ ∃ k, t = s.raise k := by
  obtain ⟨hstop, -⟩ | ⟨-, i, hfetch, hexec⟩ | ⟨-, ⟨byte1⟩, -, rfl⟩ := step_cases hstep
  · exact absurd hrun (by simp [hstop])
  · obtain ⟨u, hu, ht⟩ | ⟨k, -, ht⟩ := exec_cases hexec
    · exact .inl ⟨i, u, hfetch, hu, ht⟩
    · exact .inr ⟨k, ht⟩
  · exact .inr ⟨_, rfl⟩

/-- A step that reports no failure ran the instruction at PC. -/
theorem step_executed {s t : State} (hrun : s.runnable = true) (hstep : step s = .next t) (hok : t.report = none) :
    ∃ i u, s.fetchDecode = .ok i ∧ handler i s = .ok u ∧
      t = u.retire i.mnemonic s.pc i.length (reportedBy i s) (touchedBy i s) := by
  obtain h | ⟨k, rfl⟩ := step_running_cases hrun hstep
  · exact h
  · cases hok

/-- Settles O40: a retired state reports nothing, so a failing step is a raise. -/
theorem failedStepChangesNothing : Obligations.FailedStepChangesNothing := by
  intro s t k hrun hstep hk
  obtain ⟨i, u, -, -, rfl⟩ | ⟨k', rfl⟩ := step_running_cases hrun hstep
  · cases hk
  · cases hk
    rfl

/-- Settles O41: the handler leaves the runnable flag alone, and retiring evaluates the halt condition
(`retire_runnable_iff`). -/
theorem haltAfterInstruction : Obligations.HaltAfterInstruction := by
  intro s t hrun hstep hok
  obtain ⟨i, u, -, hu, rfl⟩ := step_executed hrun hstep hok
  obtain ⟨g, m, ds, vs, ins, n, hframe⟩ := handler_frame hu
  have hur : u.runnable = true := by rw [hframe]; exact hrun
  rw [retire_runnable_iff, State.retire_pc]
  exact ⟨fun h => h.2, fun h => ⟨hur, h⟩⟩

/-! ### The reported address and device (R130) -/

theorem reportedEa_cases (ea : Int) : reportedEa ea = ea ∨ reportedEa ea = (a16 ea : Int) := by
  unfold reportedEa
  split
  · exact .inl rfl
  · split
    · exact .inr rfl
    · exact .inl rfl

theorem reportedBy_of_no_operand {i : Instr} (h : i.operand? = none) (s : State) : reportedBy i s = 0 := by
  cases i
  case compr | clear | tixr => rfl
  all_goals cases h

theorem reportedBy_of_operand {i : Instr} {o : Operand} (h : i.operand? = some o) (hne : i.mnemonic ≠ .RSUB)
    (s : State) : reportedBy i s = reportedEa (resolve o s).ea := by
  cases i
  case rsub => exact absurd rfl hne
  case compr | clear | tixr => cases h
  all_goals cases h; rfl

theorem touchedBy_of_operand {i : Instr} {o : Operand} (h : i.operand? = some o) (hi : usesDevice i = true)
    (s : State) : touchedBy i s = some (s.readByte (resolve o s).ea) := by
  rw [touchedBy, hi, h]
  rfl

/-- Settles O42: the trace of the handler's start is extended, and the latches are what `exec` hands to `retire`. -/
theorem stepReports : Obligations.StepReports := by
  intro s t hrun hstep hok
  obtain ⟨i, u, hfetch, hu, rfl⟩ := step_executed hrun hstep hok
  obtain ⟨g, m, ds, vs, ins, n, rfl⟩ := handler_frame hu
  refine ⟨i, hfetch, rfl, rfl, rfl, rfl, fun h => reportedBy_of_no_operand h s, fun o h hne => ?_,
    fun hi => touchedBy_of_no_device hi s, fun o h hi => touchedBy_of_operand h hi s⟩
  rw [State.retire_outputs, reportedBy_of_operand h hne]
  exact reportedEa_cases _

end Sys2Proof.Machine
end

section
/-! PROOFS. The loader (spec 50): hex fields and their bounds, bytes put into memory, the section map, what a pass
may change of the machine and what may end it, and the statements O46 and O52 to O58. -/

namespace Sys2Proof.Machine

/-! ### Hex fields (R202, R206, R207) -/

theorem hexDigit_lt {c : Char} {d : Nat} (h : hexDigit c = some d) : d < 16 := by
  simp only [hexDigit] at h
  split at h
  · cases h; omega
  · split at h
    · cases h; omega
    · split at h
      · cases h; omega
      · cases h

/-- A field of k digits after the value `acc`. -/
theorem hexField_lt {k acc v : Nat} {cs rest : List Char} (h : hexField k acc cs = some (v, rest)) :
    v < (acc + 1) * 16 ^ k := by
  induction k generalizing acc cs with
  | zero =>
    cases h
    omega
  | succ k ih =>
    cases cs with
    | nil => cases h
    | cons c cs =>
      cases hd : hexDigit c with
      | none => simp [hexField, hd] at h
      | some d =>
        have hlt := hexDigit_lt hd
        simp only [hexField, hd] at h
        calc v < (acc * 16 + d + 1) * 16 ^ k := ih h
          _ ≤ ((acc + 1) * 16) * 16 ^ k := Nat.mul_le_mul_right _ (by omega)
          _ = (acc + 1) * 16 ^ (k + 1) := by rw [pow_succ', Nat.mul_assoc]

theorem hexBytes_length {k : Nat} {cs : List Char} {vs : List Byte} (h : hexBytes k cs = some vs) : vs.length = k := by
  induction k generalizing cs vs with
  | zero => cases h; rfl
  | succ k ih =>
    simp only [hexBytes] at h
    split at h
    · obtain ⟨ws, hws, rfl⟩ := Option.map_eq_some_iff.mp h
      rw [List.length_cons, ih hws]
    · cases h

/-- The count of a Text record has two digits. -/
theorem parseText_length_le {cs : List Char} {off : Nat} {vs : List Byte} (h : parseText cs = some (off, vs)) :
    vs.length ≤ 255 := by
  simp only [parseText] at h
  split at h
  · split at h
    next c rest hcount =>
      obtain ⟨ws, hws, heq⟩ := Option.map_eq_some_iff.mp h
      cases heq
      have hlt := hexField_lt hcount
      rw [hexBytes_length hws]
      omega
    next => cases h
  · cases h

/-- The half-byte count of a Modification record has two digits. -/
theorem parseModification_halfBytes_lt {cs : List Char} {r : Modification} (h : parseModification cs = some r) :
    r.halfBytes < 256 := by
  simp only [parseModification] at h
  split at h
  · split at h
    next hcount =>
      have hlt := hexField_lt hcount
      split at h
      · cases h; exact hlt
      · split at h
        · cases h; exact hlt
        · cases h
    next => cases h
  · cases h

/-! ### Bytes in consecutive cells (R211) -/

theorem lo8_toNat_byte (v : Byte) : lo8 v.toNat = v := by
  apply BitVec.eq_of_toNat_eq
  have h := lo8_toNat v.toNat
  omega

theorem Memory.readByte_writeBytes_outside {m : Memory} (hm : m.wf) {addr b : Int} (vs : List Byte)
    (hb : ∀ k : Nat, k < vs.length → a16 b ≠ a16 (addr + k)) : (m.writeBytes addr vs).readByte b = m.readByte b := by
  induction vs generalizing m addr with
  | nil => rfl
  | cons v vs ih =>
    rw [Memory.writeBytes, ih (Memory.writeByte_wf hm _ _), Memory.readByte_writeByte_other hm]
    · simpa using hb 0 (by simp)
    · intro k hk
      have h := hb (k + 1) (by simpa using hk)
      rwa [Nat.cast_succ, add_comm (k : Int), ← add_assoc] at h

theorem Memory.readByte_writeBytes {m : Memory} (hm : m.wf) {addr : Int} {vs : List Byte} (hlen : vs.length ≤ 65536)
    {k : Nat} {v : Byte} (hk : vs[k]? = some v) : (m.writeBytes addr vs).readByte (addr + k) = v := by
  induction vs generalizing m addr k with
  | nil => cases hk
  | cons w vs ih =>
    rw [List.length_cons] at hlen
    have hw := Memory.writeByte_wf hm addr w.toNat
    cases k with
    | zero =>
      cases hk
      rw [Memory.writeBytes, Memory.readByte_writeBytes_outside hw, Memory.readByte_writeByte_same hm _ (by simp),
        lo8_toNat_byte]
      intro j hj
      rw [add_assoc, add_comm 1 (j : Int), ← Nat.cast_succ]
      exact a16_add_ne (by omega) (by omega) (by omega)
    | succ k =>
      rw [Memory.writeBytes, Nat.cast_succ, add_comm (k : Int), ← add_assoc]
      exact ih hw (by omega) hk

/-- Settles O53: the record's bytes are put by `writeBytes`, and they are few enough not to overlap. -/
theorem textRecordPlacesBytes : Obligations.TextRecordPlacesBytes := by
  intro n cs ls d hcur hm
  refine ⟨fun hnone => ?_, fun off vs hsome => ?_⟩
  · simp only [pass1Text, hcur, hnone]
  · have hlen := parseText_length_le hsome
    refine ⟨hlen, _, by simp only [pass1Text, hcur, hsome]; rfl, fun k v hk => ?_, fun a ha => ?_⟩
    · exact Memory.readByte_writeBytes hm (by omega) hk
    · exact Memory.readByte_writeBytes_outside hm vs ha

/-! ### Modification (R212 to R214) -/

/-- Settles O54: the field read back is the value written modulo 256^n (`Memory.read_write`). -/
theorem modificationAdjustsField : Obligations.ModificationAdjustsField := by
  intro n cs ls d r hcur hm hparse
  refine ⟨fun hnone => ?_, fun v hsome => ?_⟩
  · simp only [pass2Modify, hcur, hparse, hnone]
  · have hlt := parseModification_halfBytes_lt hparse
    refine ⟨_, by simp only [pass2Modify, hcur, hparse, hsome]; rfl, ?_, fun a ha => ?_⟩
    · refine (Memory.read_write hm _ _ (by rw [fieldBytes]; omega) _).trans ?_
      cases r.plus <;> rfl
    · exact Memory.readByte_write_outside hm _ _ ha

/-! ### Symbols and sections (R210, R213, R216) -/

/-- Settles O55: the tables are searched from the oldest, which stands last. -/
theorem firstSectionWins : Obligations.FirstSectionWins := by
  intro t ts sym
  rw [lookupSymbol, List.reverse_append, List.reverse_singleton, List.singleton_append, List.findSome?_cons]
  cases lookupIn t sym with
  | none => rfl
  | some v => rfl

theorem mem_insertSection_self (d : Descriptor) (ds : List Descriptor) : d ∈ insertSection d ds := by
  induction ds with
  | nil => exact List.mem_singleton_self d
  | cons e rest ih =>
    rw [insertSection]
    split
    · exact List.mem_cons_self ..
    · split
      · exact List.mem_cons_self ..
      · exact List.mem_cons_of_mem e ih

theorem mem_insertSection {d e : Descriptor} {ds : List Descriptor} (h : e ∈ insertSection d ds) : e = d ∨ e ∈ ds := by
  induction ds with
  | nil => exact .inl (List.mem_singleton.mp h)
  | cons c rest ih =>
    rw [insertSection] at h
    split at h
    · exact List.mem_cons.mp h
    · split at h
      · exact (List.mem_cons.mp h).imp_right (List.mem_cons_of_mem c)
      · obtain rfl | h := List.mem_cons.mp h
        · exact .inr (List.mem_cons_self ..)
        · exact (ih h).imp_right (List.mem_cons_of_mem c)

theorem insertSection_wf {ds : List Descriptor} (h : sectionsWf ds) (d : Descriptor) :
    sectionsWf (insertSection d ds) := by
  induction ds with
  | nil => exact List.pairwise_singleton _ d
  | cons e rest ih =>
    obtain ⟨hlt, hrest⟩ := List.pairwise_cons.mp h
    rw [insertSection]
    split
    next hde =>
      refine List.pairwise_cons.mpr ⟨fun c hc => ?_, h⟩
      obtain rfl | hc := List.mem_cons.mp hc
      · exact hde
      · exact lt_trans hde (hlt c hc)
    next hde =>
      split
      next heq => exact List.pairwise_cons.mpr ⟨fun c hc => heq ▸ hlt c hc, hrest⟩
      next hne =>
        refine List.pairwise_cons.mpr ⟨fun c hc => ?_, ih hrest⟩
        obtain rfl | hc := mem_insertSection hc
        · omega
        · exact hlt c hc

/-- Settles O52: the section map takes the new descriptor (`mem_insertSection_self`). -/
theorem headerOpensSection : Obligations.HeaderOpensSection := by
  intro n cs name length ls hparse
  refine ⟨_, by rw [pass1Header, hparse], ?cur, fun d hd => ?mem, ?memory, ?regs⟩
  case mem =>
    cases hd
    exact mem_insertSection_self _ _
  all_goals rfl

/-! ### The passes (R209 to R217) -/

/-- Settles O56: the check for a current section comes before the check of the fields (log 18). -/
theorem recordBeforeHeaderRaised : Obligations.RecordBeforeHeaderRaised := by
  intro n c cs ls hcur
  refine ⟨fun hc => ?_, fun hc => ?_⟩
  · simp only [List.mem_cons, List.not_mem_nil, or_false] at hc
    obtain rfl | rfl | rfl := hc
    · simp [pass1Line, pass1Define, hcur]
    · simp [pass1Line, pass1Text, hcur]
    · simp [pass1Line, pass1End, hcur]
  · subst hc
    simp [pass2Line, pass2Modify, hcur]

/-- The machine a load of `s` works on: the initialized one but for memory, section map and entry point, the first
two in canonical form. -/
def Loading (s u : State) : Prop :=
  ∃ m ds e, Memory.wf m ∧ sectionsWf ds ∧ u = { s.initializeMachine with mem := m, sections := ds, entry := e }

/-- The three conditions a load can raise (R247). -/
def IsLoaderFault (k : Fault) : Prop :=
  (∃ sym, k = .unresolvedSymbol sym) ∨ (∃ n, k = .malformedRecord n) ∨ (∃ n, k = .recordBeforeHeader n)

/-- What one line of a load of `s` may answer. -/
def LineResult (s : State) : Except Fault LoadState → Prop
  | .ok ls => Loading s ls.machine
  | .error k => IsLoaderFault k

theorem Loading.initialized (s : State) : Loading s s.initializeMachine :=
  ⟨[], [], 0, Memory.wf_nil, .nil, rfl⟩

theorem Loading.withMem {s u : State} (h : Loading s u) {m : Memory} (hm : u.mem.wf → m.wf) :
    Loading s { u with mem := m } := by
  obtain ⟨m', ds, e, hm', hds, rfl⟩ := h
  exact ⟨m, ds, e, hm hm', hds, rfl⟩

theorem Loading.withSections {s u : State} (h : Loading s u) (d : Descriptor) :
    Loading s { u with sections := insertSection d u.sections } := by
  obtain ⟨m, ds, e, hm, hds, rfl⟩ := h
  exact ⟨m, insertSection d ds, e, hm, insertSection_wf hds d, rfl⟩

theorem Loading.withEntry {s u : State} (h : Loading s u) (e : Nat) : Loading s { u with entry := e } := by
  obtain ⟨m, ds, e', hm, hds, rfl⟩ := h
  exact ⟨m, ds, e, hm, hds, rfl⟩

theorem isLoaderFault_malformed (n : Nat) : IsLoaderFault (.malformedRecord n) := .inr (.inl ⟨n, rfl⟩)

theorem isLoaderFault_beforeHeader (n : Nat) : IsLoaderFault (.recordBeforeHeader n) := .inr (.inr ⟨n, rfl⟩)

section Lines
variable {s : State} {ls : LoadState} (h : Loading s ls.machine) (n : Nat) (cs : List Char)
include h

theorem pass1Header_result : LineResult s (pass1Header n cs ls) := by
  unfold pass1Header
  cases parseHeader cs with
  | none => exact isLoaderFault_malformed n
  | some r => exact h.withSections _

theorem pass1Define_result : LineResult s (pass1Define n cs ls) := by
  unfold pass1Define
  cases ls.cur with
  | none => exact isLoaderFault_beforeHeader n
  | some d =>
    cases parseDefines cs.length cs with
    | none => exact isLoaderFault_malformed n
    | some ds => exact h

theorem pass1Text_result : LineResult s (pass1Text n cs ls) := by
  unfold pass1Text
  cases ls.cur with
  | none => exact isLoaderFault_beforeHeader n
  | some d =>
    cases parseText cs with
    | none => exact isLoaderFault_malformed n
    | some r => exact h.withMem (fun hm => Memory.writeBytes_wf hm _ _)

theorem pass1End_result : LineResult s (pass1End n cs ls) := by
  unfold pass1End
  cases ls.cur with
  | none => exact isLoaderFault_beforeHeader n
  | some d =>
    match parseEnd cs with
    | none => exact isLoaderFault_malformed n
    | some none => exact h.withEntry _
    | some (some off) => exact h.withEntry _

theorem pass1Line_result : LineResult s (pass1Line n cs ls) := by
  cases cs with
  | nil => exact h
  | cons c cs =>
    rw [pass1Line]
    split
    · exact pass1Header_result h n cs
    · split
      · exact pass1Define_result h n cs
      · split
        · exact pass1Text_result h n cs
        · split
          · exact pass1End_result h n cs
          · exact h

theorem pass2Header_result : LineResult s (pass2Header n cs ls) := by
  unfold pass2Header
  cases parseHeader cs with
  | none => exact isLoaderFault_malformed n
  | some r => exact h

theorem pass2Modify_result : LineResult s (pass2Modify n cs ls) := by
  unfold pass2Modify
  cases ls.cur with
  | none => exact isLoaderFault_beforeHeader n
  | some d =>
    cases parseModification cs with
    | none => exact isLoaderFault_malformed n
    | some r =>
      cases hsym : lookupSymbol ls.tables r.sym with
      | none =>
        simp only [hsym]
        exact .inl ⟨_, rfl⟩
      | some v =>
        simp only [hsym]
        exact h.withMem (fun hm => Memory.write_wf hm _ _ _)

theorem pass2Line_result : LineResult s (pass2Line n cs ls) := by
  cases cs with
  | nil => exact h
  | cons c cs =>
    rw [pass2Line]
    split
    · exact pass2Header_result h n cs
    · split
      · exact pass2Modify_result h n cs
      · exact h

end Lines

/-- A pass keeps what each of its lines keeps, and ends with a fault only of one of its lines. -/
theorem runPass_result {s : State} {f : Nat → List Char → LoadState → Except Fault LoadState}
    (hf : ∀ n line (ls : LoadState), Loading s ls.machine → LineResult s (f n line ls)) (n : Nat)
    (lines : List (List Char)) (ls : LoadState) (h : Loading s ls.machine) :
    Loading s (runPass f n lines ls).1.machine ∧ ∀ k, (runPass f n lines ls).2 = some k → IsLoaderFault k := by
  induction lines generalizing n ls with
  | nil => exact ⟨h, nofun⟩
  | cons line rest ih =>
    have hline := hf n line ls h
    rw [runPass]
    cases hr : f n line ls with
    | ok ls' =>
      rw [hr] at hline
      exact ih (n + 1) ls' hline
    | error k =>
      rw [hr] at hline
      refine ⟨h, fun k' hk' => ?_⟩
      cases hk'
      exact hline

/-- Everything a load can do (R132): succeed, or raise one of the loader's conditions. -/
theorem load_cases (text : List Char) (s : State) :
    ∃ u, Loading s u ∧ (s.load text = loadDone u ∨ ∃ k, IsLoaderFault k ∧ s.load text = u.raise k) := by
  have hpass1 := runPass_result (s := s) (f := pass1Line) (fun n line ls h => pass1Line_result h n line) 1
    (artifactLines text) ⟨s.initializeMachine, none, []⟩ (Loading.initialized s)
  rw [State.load]
  generalize runPass pass1Line 1 (artifactLines text) ⟨s.initializeMachine, none, []⟩ = first at hpass1 ⊢
  obtain ⟨ls, _ | k⟩ := first
  · have hpass2 := runPass_result (s := s) (f := pass2Line) (fun n line ls h => pass2Line_result h n line) 1
      (artifactLines text) { ls with cur := none } hpass1.1
    simp only
    generalize runPass pass2Line 1 (artifactLines text) { ls with cur := none } = second at hpass2 ⊢
    obtain ⟨ls', _ | k⟩ := second
    · exact ⟨_, hpass2.1, .inl rfl⟩
    · exact ⟨_, hpass2.1, .inr ⟨k, hpass2.2 k rfl, rfl⟩⟩
  · exact ⟨_, hpass1.1, .inr ⟨k, hpass1.2 k rfl, rfl⟩⟩

theorem loadDone_reg {s u : State} (h : Loading s u) (r : Reg) : (loadDone u).reg r = 0#24 := by
  obtain ⟨m, ds, e, -, -, rfl⟩ := h
  cases r <;> rfl

/-- Settles O57: a load that reports nothing is no raise (`load_cases`). -/
theorem loadSucceeds : Obligations.LoadSucceeds := by
  intro text s hok
  obtain ⟨u, hu, hload | ⟨k, -, hload⟩⟩ := load_cases text s
  · rw [hload]
    refine ⟨loadDone_reg hu, rfl, rfl, ?_⟩
    obtain ⟨m, ds, e, -, -, rfl⟩ := hu
    exact ⟨rfl, rfl⟩
  · rw [hload] at hok
    cases hok

/-- Settles O58: a load that reports something is a raise of a loader condition (`load_cases`). -/
theorem loadFails : Obligations.LoadFails := by
  intro text s k hk
  obtain ⟨u, hu, hload | ⟨k', hfault, hload⟩⟩ := load_cases text s
  · rw [hload] at hk
    cases hk
  · rw [hload] at hk ⊢
    cases hk
    obtain ⟨m, ds, e, -, -, rfl⟩ := hu
    exact ⟨fun r => Regs.get_zero r, rfl, rfl, hfault⟩

/-! ### The host's operations keep the invariant -/

/-- Of the state before the load only the device table is left. -/
theorem Inv.loading {s u : State} (hs : Inv s) (h : Loading s u) : Inv u := by
  obtain ⟨m, ds, e, hm, hds, rfl⟩ := h
  exact
    { mem := hm
      devices := hs.devices
      sections := hds
      sw := .inr (.inl rfl)
      sZero := rfl
      fetch := nofun
      failed := fun hk => absurd rfl hk
      closed := hs.closed }

theorem Inv.loadDone {s u : State} (hs : Inv s) (h : Loading s u) : Inv (loadDone u) where
  mem := (hs.loading h).mem
  devices := (hs.loading h).devices
  sections := (hs.loading h).sections
  sw := .inr (.inl (loadDone_reg h .SW))
  sZero := loadDone_reg h .S
  fetch := fun _ => by
    show ((Machine.loadDone u).reg .PC).toNat < 65536
    rw [loadDone_reg h]
    decide
  failed := fun hk => absurd rfl hk
  closed := (hs.loading h).closed

/-- Settles O46, by induction on how the state was reached. -/
theorem reachableStatesMeetInvariant : Obligations.ReachableStatesMeetInvariant := by
  intro s hs
  induction hs with
  | reset => exact powerOnMeetsInvariant
  | initialized _ ih => exact ih.loading (Loading.initialized _)
  | @load s text _ ih =>
    obtain ⟨u, hu, hload | ⟨k, -, hload⟩⟩ := load_cases text s
    · exact hload ▸ ih.loadDone hu
    · exact hload ▸ (ih.loading hu).raise k
  | shutdown _ ih => exact ih.devClose
  | step _ hstep ih => exact stepKeepsInvariant _ _ ih hstep

end Sys2Proof.Machine
end

section
/-! PROOFS. The observer of the active section (40 R134) and the reference device's short read (44 R189, R192): the
statements O59 and O60. -/

namespace Sys2Proof.Machine

/-! ### The active section (R134) -/

theorem greatestLoad_eq_none {ds : List Descriptor} (h : greatestLoad ds = none) : ds = [] := by
  cases ds with
  | nil => rfl
  | cons d rest =>
    simp only [greatestLoad] at h
    split at h
    · cases h
    · split at h <;> cases h

theorem greatestLoad_spec {ds : List Descriptor} {d : Descriptor} (h : greatestLoad ds = some d) :
    d ∈ ds ∧ ∀ e ∈ ds, e.load ≤ d.load := by
  induction ds generalizing d with
  | nil => cases h
  | cons c rest ih =>
    simp only [greatestLoad] at h
    cases hr : greatestLoad rest with
    | none =>
      rw [hr] at h
      cases h
      simp [greatestLoad_eq_none hr]
    | some m =>
      obtain ⟨hmem, hmax⟩ := ih hr
      simp only [hr] at h
      split at h
      next hlt =>
        cases h
        exact ⟨List.mem_cons_self .., List.forall_mem_cons.mpr ⟨le_rfl, fun e he => (hmax e he).trans hlt.le⟩⟩
      next hle =>
        cases h
        exact ⟨List.mem_cons_of_mem c hmem, List.forall_mem_cons.mpr ⟨not_lt.mp hle, hmax⟩⟩

theorem owns_iff (d : Descriptor) (pc : Nat) : d.owns pc = true ↔ d.load ≤ pc ∧ pc < d.load + d.length := by
  simp [Descriptor.owns]

/-- Settles O59: the observer takes the greatest of the sections that own PC (`greatestLoad_spec`). -/
theorem activeSectionOwnsPc : Obligations.ActiveSectionOwnsPc := by
  intro s
  refine ⟨fun d hd => ?_, fun hnone d hd hown => ?_⟩
  · obtain ⟨hmem, hmax⟩ := greatestLoad_spec hd
    obtain ⟨hsec, hown⟩ := List.mem_filter.mp hmem
    obtain ⟨hlow, hhigh⟩ := (owns_iff d _).mp hown
    exact ⟨hsec, hlow, hhigh,
      fun e he h0 h1 => hmax e (List.mem_filter.mpr ⟨he, (owns_iff e _).mpr ⟨h0, h1⟩⟩)⟩
  · have hempty := List.filter_eq_nil_iff.mp (greatestLoad_eq_none hnone)
    exact hempty d hd ((owns_iff d _).mpr hown)

/-! ### The reference device (R189, R192) -/

/-- The cursor advances before the check, on a short read too. -/
theorem RefDevice.read_short {d : RefDevice} {count : Nat} (hopen : d.isOpen = true)
    (hshort : (d.input.drop (refPosition d.cursor)).length < count) :
    d.read count = some (none, { d with cursor := d.cursor + 1 }) := by
  have hgot : ((d.input.drop (refPosition d.cursor)).take count).length < count := by
    rw [List.length_take]
    omega
  simp only [RefDevice.read, hopen, if_true, if_pos hgot]

/-- Settles O60. -/
theorem referenceShortRead : Obligations.ReferenceShortRead :=
  fun _ _ _ hopen hshort => ⟨_, RefDevice.read_short hopen hshort, rfl, rfl, hopen⟩

end Sys2Proof.Machine
end
